-- ==== Sys2Proof/Word.lean ====
section
/-! DEFINITION. The word types (00_scope.md R7, R9): an 8-bit byte is the addressable unit and the width of
A, X, Y, SP and P; PC and addresses have 16 bits. -/

namespace Sys2Proof

/-- A byte: a register, a memory cell or an instruction byte (00_scope.md R7). -/
abbrev Byte := BitVec 8

/-- A 16-bit word: PC, an address or an operand word (00_scope.md R7). -/
abbrev Word := BitVec 16

end Sys2Proof
end

