-- ==== Sys2Proof/Machine/Bytes.lean ====
section
/-! DEFINITION. Byte order and address reduction, decided once (20_memory.md R41, R43 to R45). -/

namespace Sys2Proof.Machine

/-- Bits 7:0 of a word. -/
def lowByte (w : Word) : Byte := w.extractLsb' 0 8

/-- Bits 15:8 of a word. -/
def highByte (w : Word) : Byte := w.extractLsb' 8 8

/-- `lo | (hi << 8)` (20_memory.md R43). -/
def wordOf (lo hi : Byte) : Word := hi ++ lo

/-- `addr & 0xFFFF`, the reduction every access makes (20_memory.md R41). -/
def maskAddr (addr : Nat) : Nat := addr % 0x10000

end Sys2Proof.Machine
end

