-- ==== Sys2Proof/Syntax.lean ====
section
/-! DEFINITION. The instructions as syntax (30_encoding.md R60, R61, R67): the 22 mnemonics, the 8
addressing modes and the 53 (mnemonic, mode) pairs of the Instruction Table, one constructor of
`Instr` per row of opcode_table.json, each with the operand its operand bytes hold (R62 to R64). -/

namespace Sys2Proof

/-- The 22 mnemonics (00_scope.md R2). -/
inductive Mnemonic where
  | lda | ldx | ldy | sta | stx | sty | adc | and
  | tax | tay | txa | tya | inx | iny | dex | dey
  | jmp | jsr | rts | pha | pla | brk
  deriving DecidableEq, Repr

/-- The 8 addressing modes (00_scope.md R2, 40_step_and_addressing.md R85 to R91). -/
inductive Mode where
  | imm | zp | zpx | zpy | abs | abx | aby | imp
  deriving DecidableEq, Repr

/-- How many operand bytes follow the opcode byte (30_encoding.md R61). -/
def Mode.operandBytes : Mode → Nat
  | .imp => 0
  | .imm | .zp | .zpx | .zpy => 1
  | .abs | .abx | .aby => 2

/-- The 53 instructions (30_encoding.md R67). A one-byte operand is the byte `b8` of R63, a two-byte
operand the word `abs16` of R64. -/
inductive Instr where
  | ldaImm (b : Byte)  -- R100, 0xA9 IMM
  | ldaZp (b : Byte)  -- R100, 0xA5 ZP
  | ldaZpx (b : Byte)  -- R100, 0xB5 ZPX
  | ldaAbs (w : Word)  -- R100, 0xAD ABS
  | ldaAbx (w : Word)  -- R100, 0xBD ABX
  | ldaAby (w : Word)  -- R100, 0xB9 ABY
  | ldxImm (b : Byte)  -- R101, 0xA2 IMM
  | ldxZp (b : Byte)  -- R101, 0xA6 ZP
  | ldxZpy (b : Byte)  -- R101, 0xB6 ZPY
  | ldxAbs (w : Word)  -- R101, 0xAE ABS
  | ldxAby (w : Word)  -- R101, 0xBE ABY
  | ldyImm (b : Byte)  -- R102, 0xA0 IMM
  | ldyZp (b : Byte)  -- R102, 0xA4 ZP
  | ldyZpx (b : Byte)  -- R102, 0xB4 ZPX
  | ldyAbs (w : Word)  -- R102, 0xAC ABS
  | ldyAbx (w : Word)  -- R102, 0xBC ABX
  | staZp (b : Byte)  -- R103, 0x85 ZP
  | staZpx (b : Byte)  -- R103, 0x95 ZPX
  | staAbs (w : Word)  -- R103, 0x8D ABS
  | staAbx (w : Word)  -- R103, 0x9D ABX
  | staAby (w : Word)  -- R103, 0x99 ABY
  | stxZp (b : Byte)  -- R104, 0x86 ZP
  | stxZpy (b : Byte)  -- R104, 0x96 ZPY
  | stxAbs (w : Word)  -- R104, 0x8E ABS
  | styZp (b : Byte)  -- R105, 0x84 ZP
  | styZpx (b : Byte)  -- R105, 0x94 ZPX
  | styAbs (w : Word)  -- R105, 0x8C ABS
  | adcImm (b : Byte)  -- R110, 0x69 IMM
  | adcZp (b : Byte)  -- R110, 0x65 ZP
  | adcZpx (b : Byte)  -- R110, 0x75 ZPX
  | adcAbs (w : Word)  -- R110, 0x6D ABS
  | adcAbx (w : Word)  -- R110, 0x7D ABX
  | adcAby (w : Word)  -- R110, 0x79 ABY
  | andImm (b : Byte)  -- R111, 0x29 IMM
  | andZp (b : Byte)  -- R111, 0x25 ZP
  | andZpx (b : Byte)  -- R111, 0x35 ZPX
  | andAbs (w : Word)  -- R111, 0x2D ABS
  | andAbx (w : Word)  -- R111, 0x3D ABX
  | andAby (w : Word)  -- R111, 0x39 ABY
  | tax  -- R120, 0xAA IMP
  | tay  -- R121, 0xA8 IMP
  | txa  -- R122, 0x8A IMP
  | tya  -- R123, 0x98 IMP
  | inx  -- R124, 0xE8 IMP
  | iny  -- R125, 0xC8 IMP
  | dex  -- R126, 0xCA IMP
  | dey  -- R127, 0x88 IMP
  | jmp (w : Word)  -- R130, 0x4C ABS
  | jsr (w : Word)  -- R131, 0x20 ABS
  | rts  -- R132, 0x60 IMP
  | pha  -- R140, 0x48 IMP
  | pla  -- R141, 0x68 IMP
  | brk  -- R142, 0x00 IMP
  deriving DecidableEq, Repr

/-- The mnemonic column of R67. -/
def Instr.mnemonic : Instr → Mnemonic
  | .ldaImm _ | .ldaZp _ | .ldaZpx _ | .ldaAbs _ | .ldaAbx _ | .ldaAby _ => .lda
  | .ldxImm _ | .ldxZp _ | .ldxZpy _ | .ldxAbs _ | .ldxAby _ => .ldx
  | .ldyImm _ | .ldyZp _ | .ldyZpx _ | .ldyAbs _ | .ldyAbx _ => .ldy
  | .staZp _ | .staZpx _ | .staAbs _ | .staAbx _ | .staAby _ => .sta
  | .stxZp _ | .stxZpy _ | .stxAbs _ => .stx
  | .styZp _ | .styZpx _ | .styAbs _ => .sty
  | .adcImm _ | .adcZp _ | .adcZpx _ | .adcAbs _ | .adcAbx _ | .adcAby _ => .adc
  | .andImm _ | .andZp _ | .andZpx _ | .andAbs _ | .andAbx _ | .andAby _ => .and
  | .tax => .tax
  | .tay => .tay
  | .txa => .txa
  | .tya => .tya
  | .inx => .inx
  | .iny => .iny
  | .dex => .dex
  | .dey => .dey
  | .jmp _ => .jmp
  | .jsr _ => .jsr
  | .rts => .rts
  | .pha => .pha
  | .pla => .pla
  | .brk => .brk

/-- The mode column of R67. -/
def Instr.mode : Instr → Mode
  | .ldaImm _ | .ldxImm _ | .ldyImm _ | .adcImm _ | .andImm _ => .imm
  | .ldaZp _ | .ldxZp _ | .ldyZp _ | .staZp _ | .stxZp _ | .styZp _ | .adcZp _
    | .andZp _ => .zp
  | .ldaZpx _ | .ldyZpx _ | .staZpx _ | .styZpx _ | .adcZpx _ | .andZpx _ => .zpx
  | .ldxZpy _ | .stxZpy _ => .zpy
  | .ldaAbs _ | .ldxAbs _ | .ldyAbs _ | .staAbs _ | .stxAbs _ | .styAbs _ | .adcAbs _
    | .andAbs _ | .jmp _ | .jsr _ => .abs
  | .ldaAbx _ | .ldyAbx _ | .staAbx _ | .adcAbx _ | .andAbx _ => .abx
  | .ldaAby _ | .ldxAby _ | .staAby _ | .adcAby _ | .andAby _ => .aby
  | .tax | .tay | .txa | .tya | .inx | .iny | .dex
    | .dey | .rts | .pha | .pla | .brk => .imp

/-- The operand as the unsigned number its operand bytes spell (30_encoding.md R65); 0 where the mode
has none. -/
def Instr.operand : Instr → Nat
  | .ldaImm b | .ldaZp b | .ldaZpx b | .ldxImm b | .ldxZp b | .ldxZpy b | .ldyImm b
    | .ldyZp b | .ldyZpx b | .staZp b | .staZpx b | .stxZp b | .stxZpy b | .styZp b
    | .styZpx b | .adcImm b | .adcZp b | .adcZpx b | .andImm b | .andZp b | .andZpx b => b.toNat
  | .ldaAbs w | .ldaAbx w | .ldaAby w | .ldxAbs w | .ldxAby w | .ldyAbs w | .ldyAbx w
    | .staAbs w | .staAbx w | .staAby w | .stxAbs w | .styAbs w | .adcAbs w | .adcAbx w
    | .adcAby w | .andAbs w | .andAbx w | .andAby w | .jmp w | .jsr w => w.toNat
  | .tax | .tay | .txa | .tya | .inx | .iny | .dex
    | .dey | .rts | .pha | .pla | .brk => 0

/-- The length in bytes, a function of the mode alone (30_encoding.md R61). -/
def Instr.length (i : Instr) : Nat := 1 + i.mode.operandBytes

end Sys2Proof
end

