-- ==== Sys2Proof/Config.lean ====
section
/-! DEFINITION. What the implementation fixes (the named parameters of 00_scope.md R7): the values each
parameter ranges over, and the one parameter the spec leaves OPEN as a free value. The decided values
of the others stand in Machine/Params.lean, where a later measurement can correct them; `POPULATED`
and `CYCLES` are columns of the Instruction Table in Decode.lean. -/

namespace Sys2Proof.Config

/-- The flag ADC writes from bit 6 of its unmasked sum: `ADC_BIT6_TARGET` (42_arith_logic.md R110). -/
inductive AdcBit6Target where
  | v | n
  deriving DecidableEq, Repr

/-- What the Reset transaction does to PC: `RESET_PC_POLICY` (70_reset_and_hazards.md R180). -/
inductive ResetPcPolicy where
  | unchanged | zero
  deriving DecidableEq, Repr

/-- The case of the digits A to F in disassembly: `HEX_CASE` (46_disassembler.md R153). -/
inductive HexCase where
  | upper | lower
  deriving DecidableEq, Repr

/-- `DISASM_COMMENT`: the disassembler's comment for a known opcode, left OPEN by the spec
(46_disassembler.md R154; log entry 12). A free value: nothing can be proved of the text. -/
opaque disasmComment : Mnemonic → Mode → String

end Sys2Proof.Config
end

