-- ==== Sys2Proof/Machine/Params.lean ====
section
/-! DEFINITION. The values the spec decides for the parameters of 00_scope.md R7 (92_eei_decisions.md; none
of them is in the spec's own source). -/

namespace Sys2Proof.Config

/-- `ADC_BIT6_TARGET`, decided V (92_eei_decisions.md D6, 90_conflicts.md C2; UNVERIFIED, log entry 3). -/
def adcBit6Target : AdcBit6Target := .v

/-- `PC_POWERON`, decided 0x0000 (92_eei_decisions.md D7; UNVERIFIED, log entry 4). -/
def pcPowerOn : Word := 0x0000

/-- `RESET_PC_POLICY`, decided unchanged (92_eei_decisions.md D8; UNVERIFIED, log entry 5). -/
def resetPcPolicy : ResetPcPolicy := .unchanged

/-- What a byte reads as that nothing has written since power-on or the last Clear: 0x00
(10_state.md R38, 92_eei_decisions.md D9; UNVERIFIED, log entry 6). -/
def unlistedByte : Byte := 0x00

/-- `HEX_CASE`, decided upper (92_eei_decisions.md D12; UNVERIFIED, log entry 11). -/
def hexCase : HexCase := .upper

end Sys2Proof.Config
end

