-- ==== Sys2Proof/Machine/State.lean ====
section
/-! DEFINITION. The state of the machine: six registers and the memory store, and nothing else
(10_state.md R20, R35 to R37); what a step can answer besides a next state; the state after reset. -/

namespace Sys2Proof.Machine

/-- The store `M` (20_memory.md R40) as its cells that do not read as `Config.unlistedByte`, keys strictly
rising and below 0x10000 (`Memory.wf`). -/
abbrev Memory := List Host.Cell

/-- The architectural state (10_state.md R20, R36). -/
@[ext]
structure State where
  /-- Accumulator (R21). -/
  a   : Byte
  /-- Index register X (R22). -/
  x   : Byte
  /-- Index register Y (R22). -/
  y   : Byte
  /-- Stack pointer: the low byte of the next free stack address (R23). -/
  sp  : Byte
  /-- Program counter (R24). -/
  pc  : Word
  /-- Packed status register (R25); its bits are read and written through `Flag`. -/
  p   : Byte
  /-- The memory store (20_memory.md R40). -/
  mem : Memory
  deriving DecidableEq, Repr

/-- Faults. There is none: no access faults, no instruction traps on an error and arithmetic wraps
(20_memory.md R49, 60_exceptions.md R160), so the type has no constructor (log entry 8). -/
inductive Fault where
  deriving DecidableEq, Repr

/-- Why a request has no meaning. -/
inductive Refusal where
  /-- Raised by a rejected arm of `exec` only: an instruction without a meaning yet. Safe. No arm raises
  it in this model. -/
  | notModelled (mnemonic : String)
  /-- Raised by the host transaction LoadProgram for an origin above 0xFFFF (20_memory.md R50: "a model
  refuses any other origin"). Safe: nothing is claimed of such a load. -/
  | loadOriginOutOfRange (origin : Nat)
  /-- Raised by the host transaction Disassemble for an address above 0xFFFF (93_implementation_defined.md
  U14). Safe: nothing is claimed of such a listing. -/
  | disassembleAddressOutOfRange (address : Nat)
  deriving DecidableEq, Repr

/-- The state right after power-on, which ends in a Reset (10_state.md R38, 70_reset_and_hazards.md R181):
registers as R38 lists them, every memory byte 0x00. -/
def State.reset : State where
  a   := 0x00
  x   := 0x00
  y   := 0x00
  sp  := 0xFF
  pc  := Config.pcPowerOn
  p   := 0x24
  mem := []

end Sys2Proof.Machine
end

