-- ==== Sys2Proof/Machine/Flags.lean ====
section
/-! DEFINITION. The status register and every flag computation (10_state.md R25, R26;
40_step_and_addressing.md R93; 42_arith_logic.md R110). -/

namespace Sys2Proof.Machine

/-- The bits of P (10_state.md R25); `bit5` is the unnamed one. -/
inductive Flag where
  | c | z | i | d | b | bit5 | v | n
  deriving DecidableEq, Repr

/-- The mask column of 10_state.md R25. -/
def Flag.mask : Flag → Byte
  | .c => 0x01
  | .z => 0x02
  | .i => 0x04
  | .d => 0x08
  | .b => 0x10
  | .bit5 => 0x20
  | .v => 0x40
  | .n => 0x80

/-- `P.f` (10_state.md R26). -/
def getFlag (f : Flag) (p : Byte) : Bool := (p &&& f.mask) != 0

/-- `P.f <- on` (10_state.md R26). -/
def setFlag (f : Flag) (on : Bool) (p : Byte) : Byte := if on then p ||| f.mask else p &&& ~~~f.mask

/-- What `UpdateNZ(v)` makes of the status (40_step_and_addressing.md R93). -/
def nzStatus (v p : Byte) : Byte := setFlag .n (v.getLsbD 7) (setFlag .z (v == 0) p)

/-- ADC's unmasked sum, 0 to 511 (42_arith_logic.md R110). -/
def adcSum (a m : Byte) (carry : Bool) : Nat := a.toNat + m.toNat + carry.toNat

/-- What ADC makes of the status, under either value of `ADC_BIT6_TARGET` (42_arith_logic.md R110). -/
def adcStatus (target : Config.AdcBit6Target) (sum : Nat) (p : Byte) : Byte :=
  let p1 := setFlag .c (decide (sum > 255)) p
  let p2 := match target with
    | .v => setFlag .v (sum.testBit 6) p1
    | .n => setFlag .n (sum.testBit 6) p1
  nzStatus (BitVec.ofNat 8 sum) p2

/-- What BRK pushes of the status: `P | 0x30`, B and bit 5 set in the copy (45_stack_brk.md R142). -/
def brkStatusCopy (p : Byte) : Byte := p ||| 0x30

/-- A flag of the state. -/
def State.flag (s : State) (f : Flag) : Bool := getFlag f s.p

end Sys2Proof.Machine
end

