-- ==== Sys2Proof/Machine/Memory.lean ====
section
/-! DEFINITION. The memory store as a list of cells in canonical form (20_memory.md R40). Keys here are
addresses already reduced to 16 bits; the reduction is in Machine/Ops.lean. -/

namespace Sys2Proof.Machine

/-- The byte at a key; `Config.unlistedByte` where nothing is listed (20_memory.md R54). -/
def Memory.get : Memory → Nat → Byte
  | [], _ => Config.unlistedByte
  | c :: m, k => if c.1 = k then c.2 else Memory.get m k

/-- The store without any entry at the key. -/
def Memory.erase (m : Memory) (k : Nat) : Memory := m.filter fun c => c.1 != k

/-- The store with an entry added, before the first larger key. -/
def Memory.insert : Memory → Nat → Byte → Memory
  | [], k, v => [(k, v)]
  | c :: m, k, v => if k < c.1 then (k, v) :: c :: m else c :: Memory.insert m k v

/-- The store with the byte at the key replaced; a byte that reads as unlisted is not listed. -/
def Memory.set (m : Memory) (k : Nat) (v : Byte) : Memory :=
  if v = Config.unlistedByte then Memory.erase m k else Memory.insert (Memory.erase m k) k v

/-- The canonical form, for cells at or above `lo`: keys strictly rising and in the 64 KiB space, no cell
equal to what an unlisted one reads as. -/
def Memory.wfFrom : Nat → Memory → Bool
  | _, [] => true
  | lo, c :: m =>
    decide (lo ≤ c.1) && decide (c.1 < 0x10000) && (c.2 != Config.unlistedByte) && Memory.wfFrom (c.1 + 1) m

/-- The canonical form. -/
def Memory.wf (m : Memory) : Bool := Memory.wfFrom 0 m

end Sys2Proof.Machine
end

