-- ==== Sys2Proof/Machine/Ops.lean ====
section
/-! DEFINITION. The named operations over registers and memory (00_scope.md R10 to R12): register writes,
byte and word access, instruction fetch, the NZ update, the stack, the software break and Reset. -/

namespace Sys2Proof.Machine

/-- `A <- v` (00_scope.md R10). -/
def State.setA (s : State) (v : Byte) : State := { s with a := v }
/-- `X <- v`. -/
def State.setX (s : State) (v : Byte) : State := { s with x := v }
/-- `Y <- v`. -/
def State.setY (s : State) (v : Byte) : State := { s with y := v }
/-- `SP <- v`. -/
def State.setSp (s : State) (v : Byte) : State := { s with sp := v }
/-- `PC <- v`. -/
def State.setPc (s : State) (v : Word) : State := { s with pc := v }
/-- `P <- v`. -/
def State.setP (s : State) (v : Byte) : State := { s with p := v }
/-- `M <- m`. -/
def State.setMem (s : State) (m : Memory) : State := { s with mem := m }

/-- `MemRead(addr, 1)` (20_memory.md R41); the address may exceed 0xFFFF and is reduced here. -/
def memRead (s : State) (addr : Nat) : Byte := Memory.get s.mem (maskAddr addr)

/-- `MemWrite(addr, 1, v)` (20_memory.md R42). -/
def memWrite (s : State) (addr : Nat) (v : Byte) : State := s.setMem (Memory.set s.mem (maskAddr addr) v)

/-- `MemRead(addr, 2)`, low byte first (20_memory.md R43). -/
def readWord (s : State) (addr : Nat) : Word := wordOf (memRead s addr) (memRead s (addr + 1))

/-- `MemWrite(addr, 2, w)`, low byte first (20_memory.md R44). -/
def writeWord (s : State) (addr : Nat) (w : Word) : State :=
  memWrite (memWrite s addr (lowByte w)) (addr + 1) (highByte w)

/-- The `n` bytes from an address on. -/
def bytesFrom (s : State) (addr : Nat) : Nat → List Byte
  | 0 => []
  | n + 1 => memRead s addr :: bytesFrom s (addr + 1) n

/-- `FetchByte()` (40_step_and_addressing.md R83). -/
def fetchByte (s : State) : Byte × State := (memRead s s.pc.toNat, s.setPc (s.pc + 1))

/-- `FetchWord()` (40_step_and_addressing.md R84). -/
def fetchWord (s : State) : Word × State := (readWord s s.pc.toNat, s.setPc (s.pc + 2))

/-- `UpdateNZ(v)` (40_step_and_addressing.md R93). -/
def updateNZ (v : Byte) (s : State) : State := s.setP (nzStatus v s.p)

/-- `P.f <- on`. -/
def State.setFlag (s : State) (f : Flag) (on : Bool) : State := s.setP (Machine.setFlag f on s.p)

/-- `0x0100 + SP` (10_state.md R23). -/
def stackAddr (sp : Byte) : Nat := 0x0100 + sp.toNat

/-- `Push(v)` (40_step_and_addressing.md R95). -/
def push (v : Byte) (s : State) : State := (memWrite s (stackAddr s.sp) v).setSp (s.sp - 1)

/-- `Pop()` (40_step_and_addressing.md R96). -/
def pop (s : State) : Byte × State := (memRead s (stackAddr (s.sp + 1)), s.setSp (s.sp + 1))

/-- Two pushes, the high byte first (44_control.md R131, 45_stack_brk.md R142). -/
def pushWord (w : Word) (s : State) : State := push (lowByte w) (push (highByte w) s)

/-- Two pops, the low byte first (44_control.md R132). -/
def popWord (s : State) : Word × State :=
  let lo := pop s
  let hi := pop lo.2
  (wordOf lo.1 hi.1, hi.2)

/-- The fixed vector address of the software break (45_stack_brk.md R142). -/
def brkVector : Nat := 0xFFFE

/-- Entry to the software break, the only trap-like transfer (60_exceptions.md R163, 45_stack_brk.md R142):
the return address PC + 1 and `P | 0x30` go on the stack, I is set, PC takes the vector word. PC is
past the BRK byte on entry. There is no operation that returns from it (60_exceptions.md R165). -/
def takeBreak (s : State) : State :=
  let s1 := pushWord (s.pc + 1) s
  let s2 := push (brkStatusCopy s1.p) s1
  let s3 := s2.setFlag .i true
  s3.setPc (readWord s3 brkVector)

/-- Zero bytes written to the `n` addresses from `addr` on. -/
def zeroBytes (addr : Nat) : Nat → State → State
  | 0, s => s
  | n + 1, s => zeroBytes (addr + 1) n (memWrite s addr 0x00)

/-- The Reset transaction (70_reset_and_hazards.md R180). -/
def resetTransaction (s : State) : State :=
  let s1 := ((((s.setA 0x00).setX 0x00).setY 0x00).setSp 0xFF).setP 0x24
  let s2 := zeroBytes 0x0100 0x100 s1
  match Config.resetPcPolicy with
  | .unchanged => s2
  | .zero => s2.setPc 0x0000

end Sys2Proof.Machine
end

