-- ==== Sys2Proof/Machine/Operands.lean ====
section
/-! DEFINITION. The addressing modes (40_step_and_addressing.md R85 to R92). The operand bytes have been
fetched (Machine/Fetch.lean), so a mode here starts from their value. -/

namespace Sys2Proof.Machine

/-- A memory operand: the addressing mode and its operand byte or word. -/
inductive Address where
  | zp  (b : Byte)
  | zpx (b : Byte)
  | zpy (b : Byte)
  | abs (w : Word)
  | abx (w : Word)
  | aby (w : Word)
  deriving DecidableEq, Repr

/-- The effective address (40_step_and_addressing.md R86 to R91). The zero-page sums wrap mod 256; the
absolute sums are unmasked, and the access reduces them. -/
def Address.ea : Address → State → Nat
  | .zp b, _ => b.toNat
  | .zpx b, s => (b + s.x).toNat
  | .zpy b, s => (b + s.y).toNat
  | .abs w, _ => w.toNat
  | .abx w, s => w.toNat + s.x.toNat
  | .aby w, s => w.toNat + s.y.toNat

/-- A source operand: immediate, or in memory (40_step_and_addressing.md R92). -/
inductive Source where
  | imm (b : Byte)
  | mem (o : Address)
  deriving DecidableEq, Repr

/-- `Operand(mode)` (40_step_and_addressing.md R92). -/
def Source.value : Source → State → Byte
  | .imm b, _ => b
  | .mem o, s => memRead s (o.ea s)

end Sys2Proof.Machine
end

