-- ==== Sys2Proof/Machine/Alu.lean ====
section
/-! DEFINITION. The arithmetic and logic instructions ADC and AND (42_arith_logic.md R110 to R112). -/

namespace Sys2Proof.Machine

/-- ADC's pseudocode (R110): the flags from the unmasked sum, then `A` takes the sum mod 256. -/
def addWithCarry (o : Source) (s : State) : State :=
  let sum := adcSum s.a (o.value s) (s.flag .c)
  (s.setP (adcStatus Config.adcBit6Target sum s.p)).setA (BitVec.ofNat 8 sum)

/-- AND's pseudocode (R111): `A` takes `A & m`, and Z and N follow it. -/
def andWithA (o : Source) (s : State) : State :=
  let v := s.a &&& o.value s
  updateNZ v (s.setA v)

/-- R110: ADC IMM. -/
def execAdcImm (b : Byte) (s : State) : Host.Outcome State Fault Refusal :=
  .next (addWithCarry (.imm b) s)

/-- R110: ADC ZP. -/
def execAdcZp (b : Byte) (s : State) : Host.Outcome State Fault Refusal :=
  .next (addWithCarry (.mem (.zp b)) s)

/-- R110: ADC ZPX. -/
def execAdcZpx (b : Byte) (s : State) : Host.Outcome State Fault Refusal :=
  .next (addWithCarry (.mem (.zpx b)) s)

/-- R110: ADC ABS. -/
def execAdcAbs (w : Word) (s : State) : Host.Outcome State Fault Refusal :=
  .next (addWithCarry (.mem (.abs w)) s)

/-- R110: ADC ABX. -/
def execAdcAbx (w : Word) (s : State) : Host.Outcome State Fault Refusal :=
  .next (addWithCarry (.mem (.abx w)) s)

/-- R110: ADC ABY. -/
def execAdcAby (w : Word) (s : State) : Host.Outcome State Fault Refusal :=
  .next (addWithCarry (.mem (.aby w)) s)

/-- R111: AND IMM. -/
def execAndImm (b : Byte) (s : State) : Host.Outcome State Fault Refusal :=
  .next (andWithA (.imm b) s)

/-- R111: AND ZP. -/
def execAndZp (b : Byte) (s : State) : Host.Outcome State Fault Refusal :=
  .next (andWithA (.mem (.zp b)) s)

/-- R111: AND ZPX. -/
def execAndZpx (b : Byte) (s : State) : Host.Outcome State Fault Refusal :=
  .next (andWithA (.mem (.zpx b)) s)

/-- R111: AND ABS. -/
def execAndAbs (w : Word) (s : State) : Host.Outcome State Fault Refusal :=
  .next (andWithA (.mem (.abs w)) s)

/-- R111: AND ABX. -/
def execAndAbx (w : Word) (s : State) : Host.Outcome State Fault Refusal :=
  .next (andWithA (.mem (.abx w)) s)

/-- R111: AND ABY. -/
def execAndAby (w : Word) (s : State) : Host.Outcome State Fault Refusal :=
  .next (andWithA (.mem (.aby w)) s)

end Sys2Proof.Machine
end

