-- ==== Sys2Proof/Machine/Control.lean ====
section
/-! DEFINITION. The control transfers JMP, JSR and RTS (44_control.md R130 to R132). -/

namespace Sys2Proof.Machine

/-- R130: JMP ABS. The operand word is the target. -/
def execJmp (w : Word) (s : State) : Host.Outcome State Fault Refusal :=
  .next (s.setPc w)

/-- R131: JSR ABS. PC is past the instruction, so PC - 1 is the address of its last byte. -/
def execJsr (w : Word) (s : State) : Host.Outcome State Fault Refusal :=
  .next ((pushWord (s.pc - 1) s).setPc w)

/-- R132: RTS IMP. -/
def execRts (s : State) : Host.Outcome State Fault Refusal :=
  let r := popWord s
  .next (r.2.setPc (r.1 + 1))

end Sys2Proof.Machine
end

