-- ==== Sys2Proof/Machine/LoadStore.lean ====
section
/-! DEFINITION. The load and store instructions (41_load_store.md R100 to R105). -/

namespace Sys2Proof.Machine

/-- LDA's pseudocode (R100): `A` takes the operand, and Z and N follow it. -/
def loadA (o : Source) (s : State) : State :=
  let v := o.value s
  updateNZ v (s.setA v)

/-- LDX's pseudocode (R101): `X` takes the operand, and Z and N follow it. -/
def loadX (o : Source) (s : State) : State :=
  let v := o.value s
  updateNZ v (s.setX v)

/-- LDY's pseudocode (R102): `Y` takes the operand, and Z and N follow it. -/
def loadY (o : Source) (s : State) : State :=
  let v := o.value s
  updateNZ v (s.setY v)

/-- The stores' pseudocode (R103 to R105): the byte goes to the effective address, which is not read;
no flag is written. -/
def store (o : Address) (v : Byte) (s : State) : State := memWrite s (o.ea s) v

/-- R100: LDA IMM. -/
def execLdaImm (b : Byte) (s : State) : Host.Outcome State Fault Refusal :=
  .next (loadA (.imm b) s)

/-- R100: LDA ZP. -/
def execLdaZp (b : Byte) (s : State) : Host.Outcome State Fault Refusal :=
  .next (loadA (.mem (.zp b)) s)

/-- R100: LDA ZPX. -/
def execLdaZpx (b : Byte) (s : State) : Host.Outcome State Fault Refusal :=
  .next (loadA (.mem (.zpx b)) s)

/-- R100: LDA ABS. -/
def execLdaAbs (w : Word) (s : State) : Host.Outcome State Fault Refusal :=
  .next (loadA (.mem (.abs w)) s)

/-- R100: LDA ABX. -/
def execLdaAbx (w : Word) (s : State) : Host.Outcome State Fault Refusal :=
  .next (loadA (.mem (.abx w)) s)

/-- R100: LDA ABY. -/
def execLdaAby (w : Word) (s : State) : Host.Outcome State Fault Refusal :=
  .next (loadA (.mem (.aby w)) s)

/-- R101: LDX IMM. -/
def execLdxImm (b : Byte) (s : State) : Host.Outcome State Fault Refusal :=
  .next (loadX (.imm b) s)

/-- R101: LDX ZP. -/
def execLdxZp (b : Byte) (s : State) : Host.Outcome State Fault Refusal :=
  .next (loadX (.mem (.zp b)) s)

/-- R101: LDX ZPY. -/
def execLdxZpy (b : Byte) (s : State) : Host.Outcome State Fault Refusal :=
  .next (loadX (.mem (.zpy b)) s)

/-- R101: LDX ABS. -/
def execLdxAbs (w : Word) (s : State) : Host.Outcome State Fault Refusal :=
  .next (loadX (.mem (.abs w)) s)

/-- R101: LDX ABY. -/
def execLdxAby (w : Word) (s : State) : Host.Outcome State Fault Refusal :=
  .next (loadX (.mem (.aby w)) s)

/-- R102: LDY IMM. -/
def execLdyImm (b : Byte) (s : State) : Host.Outcome State Fault Refusal :=
  .next (loadY (.imm b) s)

/-- R102: LDY ZP. -/
def execLdyZp (b : Byte) (s : State) : Host.Outcome State Fault Refusal :=
  .next (loadY (.mem (.zp b)) s)

/-- R102: LDY ZPX. -/
def execLdyZpx (b : Byte) (s : State) : Host.Outcome State Fault Refusal :=
  .next (loadY (.mem (.zpx b)) s)

/-- R102: LDY ABS. -/
def execLdyAbs (w : Word) (s : State) : Host.Outcome State Fault Refusal :=
  .next (loadY (.mem (.abs w)) s)

/-- R102: LDY ABX. -/
def execLdyAbx (w : Word) (s : State) : Host.Outcome State Fault Refusal :=
  .next (loadY (.mem (.abx w)) s)

/-- R103: STA ZP. -/
def execStaZp (b : Byte) (s : State) : Host.Outcome State Fault Refusal :=
  .next (store (.zp b) s.a s)

/-- R103: STA ZPX. -/
def execStaZpx (b : Byte) (s : State) : Host.Outcome State Fault Refusal :=
  .next (store (.zpx b) s.a s)

/-- R103: STA ABS. -/
def execStaAbs (w : Word) (s : State) : Host.Outcome State Fault Refusal :=
  .next (store (.abs w) s.a s)

/-- R103: STA ABX. -/
def execStaAbx (w : Word) (s : State) : Host.Outcome State Fault Refusal :=
  .next (store (.abx w) s.a s)

/-- R103: STA ABY. -/
def execStaAby (w : Word) (s : State) : Host.Outcome State Fault Refusal :=
  .next (store (.aby w) s.a s)

/-- R104: STX ZP. -/
def execStxZp (b : Byte) (s : State) : Host.Outcome State Fault Refusal :=
  .next (store (.zp b) s.x s)

/-- R104: STX ZPY. -/
def execStxZpy (b : Byte) (s : State) : Host.Outcome State Fault Refusal :=
  .next (store (.zpy b) s.x s)

/-- R104: STX ABS. -/
def execStxAbs (w : Word) (s : State) : Host.Outcome State Fault Refusal :=
  .next (store (.abs w) s.x s)

/-- R105: STY ZP. -/
def execStyZp (b : Byte) (s : State) : Host.Outcome State Fault Refusal :=
  .next (store (.zp b) s.y s)

/-- R105: STY ZPX. -/
def execStyZpx (b : Byte) (s : State) : Host.Outcome State Fault Refusal :=
  .next (store (.zpx b) s.y s)

/-- R105: STY ABS. -/
def execStyAbs (w : Word) (s : State) : Host.Outcome State Fault Refusal :=
  .next (store (.abs w) s.y s)

end Sys2Proof.Machine
end

