-- ==== Sys2Proof/Machine/Stack.lean ====
section
/-! DEFINITION. The stack instructions and the software break (45_stack_brk.md R140 to R142). -/

namespace Sys2Proof.Machine

/-- R140: PHA IMP. -/
def execPha (s : State) : Host.Outcome State Fault Refusal :=
  .next (push s.a s)

/-- R141: PLA IMP. -/
def execPla (s : State) : Host.Outcome State Fault Refusal :=
  let r := pop s
  .next (updateNZ r.1 (r.2.setA r.1))

/-- R142: BRK IMP. -/
def execBrk (s : State) : Host.Outcome State Fault Refusal :=
  .next (takeBreak s)

end Sys2Proof.Machine
end

