-- ==== Sys2Proof/Machine/Transfer.lean ====
section
/-! DEFINITION. The register transfers, increments and decrements (43_transfer_incdec.md R120 to R127). -/

namespace Sys2Proof.Machine

/-- A register write followed by `UpdateNZ` of the value written: the shape of all eight rules. -/
def writeA (v : Byte) (s : State) : State := updateNZ v (s.setA v)

/-- As `writeA`, for `X`. -/
def writeX (v : Byte) (s : State) : State := updateNZ v (s.setX v)

/-- As `writeA`, for `Y`. -/
def writeY (v : Byte) (s : State) : State := updateNZ v (s.setY v)

/-- R120: TAX IMP. -/
def execTax (s : State) : Host.Outcome State Fault Refusal :=
  .next (writeX s.a s)

/-- R121: TAY IMP. -/
def execTay (s : State) : Host.Outcome State Fault Refusal :=
  .next (writeY s.a s)

/-- R122: TXA IMP. -/
def execTxa (s : State) : Host.Outcome State Fault Refusal :=
  .next (writeA s.x s)

/-- R123: TYA IMP. -/
def execTya (s : State) : Host.Outcome State Fault Refusal :=
  .next (writeA s.y s)

/-- R124: INX IMP. -/
def execInx (s : State) : Host.Outcome State Fault Refusal :=
  .next (writeX (s.x + 1) s)

/-- R125: INY IMP. -/
def execIny (s : State) : Host.Outcome State Fault Refusal :=
  .next (writeY (s.y + 1) s)

/-- R126: DEX IMP. -/
def execDex (s : State) : Host.Outcome State Fault Refusal :=
  .next (writeX (s.x - 1) s)

/-- R127: DEY IMP. -/
def execDey (s : State) : Host.Outcome State Fault Refusal :=
  .next (writeY (s.y - 1) s)

end Sys2Proof.Machine
end

