-- ==== Sys2Proof/WellFormed.lean ====
section
/-! DEFINITION. Which written instructions are instructions of the hardware (30_encoding.md R65, R67): the
mnemonic takes the mode, and the operand fits the mode's operand bytes. The constructors of `Instr`
admit nothing else, so the check is made on the written form (mnemonic, mode, operand value). -/

namespace Sys2Proof

/-- An instruction as written: a mnemonic, a mode and an operand value (30_encoding.md R71). -/
structure Written where
  mnemonic : Mnemonic
  mode     : Mode
  operand  : Nat
  deriving DecidableEq, Repr

/-- The modes each mnemonic takes: the rows of the table of 30_encoding.md R67. -/
def Mnemonic.modes : Mnemonic → List Mode
  | .lda | .adc | .and => [.imm, .zp, .zpx, .abs, .abx, .aby]
  | .ldx => [.imm, .zp, .zpy, .abs, .aby]
  | .ldy => [.imm, .zp, .zpx, .abs, .abx]
  | .sta => [.zp, .zpx, .abs, .abx, .aby]
  | .stx => [.zp, .zpy, .abs]
  | .sty => [.zp, .zpx, .abs]
  | .tax | .tay | .txa | .tya | .inx | .iny | .dex | .dey | .rts
    | .pha | .pla | .brk => [.imp]
  | .jmp | .jsr => [.abs]

/-- The mnemonic takes the mode (30_encoding.md R67). -/
def Written.modeTaken (l : Written) : Bool := l.mnemonic.modes.contains l.mode

/-- The operand is an unsigned number of the mode's operand bytes, 0 where there is none (R62 to R65). -/
def Written.operandFits (l : Written) : Bool := decide (l.operand < 2 ^ (8 * l.mode.operandBytes))

/-- Both checks. -/
def Written.wellFormed (l : Written) : Bool := l.modeTaken && l.operandFits

/-- The written form of an instruction. -/
def Instr.written (i : Instr) : Written := ⟨i.mnemonic, i.mode, i.operand⟩

/-- An instruction is well-formed when its written form is. -/
def WellFormed (i : Instr) : Bool := i.written.wellFormed

end Sys2Proof
end

