-- ==== Sys2Proof/Decode.lean ====
section
/-! DEFINITION. The Instruction Table (30_encoding.md R60, R67; cycle counts of
70_reset_and_hazards.md R190), the decoder over it, total on any bytes, and after it the encoder. -/

namespace Sys2Proof

open Machine (wordOf lowByte highByte)

/-- What a table entry's executor is given: nothing (format F-IMP, R62), the byte `b8` (F-B8, R63), or
the word `abs16` (F-W16, R64). -/
inductive Executor where
  | imp (i : Instr)
  | b8  (f : Byte → Instr)
  | w16 (f : Word → Instr)

/-- A row of the Instruction Table: opcode to mnemonic, mode, cycles, executor (10_state.md R35). -/
structure Entry where
  opcode   : Byte
  mnemonic : Mnemonic
  mode     : Mode
  cycles   : Nat
  executor : Executor

/-- The load rows of R67. -/
def loadTable : List Entry :=
  [ ⟨0xA9, .lda, .imm, 2, .b8 .ldaImm⟩,
    ⟨0xA5, .lda, .zp, 3, .b8 .ldaZp⟩,
    ⟨0xB5, .lda, .zpx, 4, .b8 .ldaZpx⟩,
    ⟨0xAD, .lda, .abs, 4, .w16 .ldaAbs⟩,
    ⟨0xBD, .lda, .abx, 4, .w16 .ldaAbx⟩,
    ⟨0xB9, .lda, .aby, 4, .w16 .ldaAby⟩,
    ⟨0xA2, .ldx, .imm, 2, .b8 .ldxImm⟩,
    ⟨0xA6, .ldx, .zp, 3, .b8 .ldxZp⟩,
    ⟨0xB6, .ldx, .zpy, 4, .b8 .ldxZpy⟩,
    ⟨0xAE, .ldx, .abs, 4, .w16 .ldxAbs⟩,
    ⟨0xBE, .ldx, .aby, 4, .w16 .ldxAby⟩,
    ⟨0xA0, .ldy, .imm, 2, .b8 .ldyImm⟩,
    ⟨0xA4, .ldy, .zp, 3, .b8 .ldyZp⟩,
    ⟨0xB4, .ldy, .zpx, 4, .b8 .ldyZpx⟩,
    ⟨0xAC, .ldy, .abs, 4, .w16 .ldyAbs⟩,
    ⟨0xBC, .ldy, .abx, 4, .w16 .ldyAbx⟩ ]

/-- The store rows of R67. -/
def storeTable : List Entry :=
  [ ⟨0x85, .sta, .zp, 3, .b8 .staZp⟩,
    ⟨0x95, .sta, .zpx, 4, .b8 .staZpx⟩,
    ⟨0x8D, .sta, .abs, 4, .w16 .staAbs⟩,
    ⟨0x9D, .sta, .abx, 5, .w16 .staAbx⟩,
    ⟨0x99, .sta, .aby, 5, .w16 .staAby⟩,
    ⟨0x86, .stx, .zp, 3, .b8 .stxZp⟩,
    ⟨0x96, .stx, .zpy, 4, .b8 .stxZpy⟩,
    ⟨0x8E, .stx, .abs, 4, .w16 .stxAbs⟩,
    ⟨0x84, .sty, .zp, 3, .b8 .styZp⟩,
    ⟨0x94, .sty, .zpx, 4, .b8 .styZpx⟩,
    ⟨0x8C, .sty, .abs, 4, .w16 .styAbs⟩ ]

/-- The ADC and AND rows of R67. -/
def aluTable : List Entry :=
  [ ⟨0x69, .adc, .imm, 2, .b8 .adcImm⟩,
    ⟨0x65, .adc, .zp, 3, .b8 .adcZp⟩,
    ⟨0x75, .adc, .zpx, 4, .b8 .adcZpx⟩,
    ⟨0x6D, .adc, .abs, 4, .w16 .adcAbs⟩,
    ⟨0x7D, .adc, .abx, 4, .w16 .adcAbx⟩,
    ⟨0x79, .adc, .aby, 4, .w16 .adcAby⟩,
    ⟨0x29, .and, .imm, 2, .b8 .andImm⟩,
    ⟨0x25, .and, .zp, 3, .b8 .andZp⟩,
    ⟨0x35, .and, .zpx, 4, .b8 .andZpx⟩,
    ⟨0x2D, .and, .abs, 4, .w16 .andAbs⟩,
    ⟨0x3D, .and, .abx, 4, .w16 .andAbx⟩,
    ⟨0x39, .and, .aby, 4, .w16 .andAby⟩ ]

/-- The transfer, increment, decrement, control and stack rows of R67. -/
def impliedTable : List Entry :=
  [ ⟨0xAA, .tax, .imp, 2, .imp .tax⟩,
    ⟨0xA8, .tay, .imp, 2, .imp .tay⟩,
    ⟨0x8A, .txa, .imp, 2, .imp .txa⟩,
    ⟨0x98, .tya, .imp, 2, .imp .tya⟩,
    ⟨0xE8, .inx, .imp, 2, .imp .inx⟩,
    ⟨0xC8, .iny, .imp, 2, .imp .iny⟩,
    ⟨0xCA, .dex, .imp, 2, .imp .dex⟩,
    ⟨0x88, .dey, .imp, 2, .imp .dey⟩,
    ⟨0x4C, .jmp, .abs, 3, .w16 .jmp⟩,
    ⟨0x20, .jsr, .abs, 6, .w16 .jsr⟩,
    ⟨0x60, .rts, .imp, 6, .imp .rts⟩,
    ⟨0x48, .pha, .imp, 3, .imp .pha⟩,
    ⟨0x68, .pla, .imp, 4, .imp .pla⟩,
    ⟨0x00, .brk, .imp, 7, .imp .brk⟩ ]

/-- The Instruction Table: the 53 populated opcodes (parameter `POPULATED`, R67; log entry 1), each with
its base cycle count (parameter `CYCLES`, R190; log entry 2). -/
def instructionTable : List Entry := loadTable ++ storeTable ++ aluTable ++ impliedTable

/-- `Table[op]`: the entry, or none where the byte is unpopulated (30_encoding.md R60, R68). -/
def lookup (op : Byte) : Option Entry := instructionTable.find? fun e => e.opcode == op

/-- Whether the byte has an entry (30_encoding.md R68). -/
def populated (op : Byte) : Bool := (lookup op).isSome

/-- What the decoder answers: the instruction and the bytes after it, or why there is none. -/
inductive Decoded where
  | ok (i : Instr) (rest : List Byte)
  /-- The first byte is unpopulated (30_encoding.md R68). -/
  | unknownOpcode (op : Byte)
  /-- The bytes end before the operand bytes that the opcode's mode takes (30_encoding.md R61). -/
  | truncated (op : Byte)
  /-- There is no byte to decode. -/
  | noBytes
  deriving DecidableEq, Repr

/-- Decoding of a byte list, first byte at the lowest address (30_encoding.md R60 to R64). -/
def decode : List Byte → Decoded
  | [] => .noBytes
  | op :: rest =>
    match lookup op with
    | none => .unknownOpcode op
    | some e =>
      match e.executor, rest with
      | .imp i, _ => .ok i rest
      | .b8 f, b :: rest' => .ok (f b) rest'
      | .w16 f, lo :: hi :: rest' => .ok (f (wordOf lo hi)) rest'
      | _, _ => .truncated op

/-- The instruction of a decoding, if there is one. -/
def Decoded.instr? : Decoded → Option Instr
  | .ok i _ => some i
  | .unknownOpcode _ | .truncated _ | .noBytes => none

/-- The opcode byte of each instruction, written a second time from the per-instruction Encoding lines
of files 41 to 45 (R100 to R142), so that `decode` and `encode` check each other. -/
def Instr.opcode : Instr → Byte
  | .ldaImm _ => 0xA9
  | .ldaZp _ => 0xA5
  | .ldaZpx _ => 0xB5
  | .ldaAbs _ => 0xAD
  | .ldaAbx _ => 0xBD
  | .ldaAby _ => 0xB9
  | .ldxImm _ => 0xA2
  | .ldxZp _ => 0xA6
  | .ldxZpy _ => 0xB6
  | .ldxAbs _ => 0xAE
  | .ldxAby _ => 0xBE
  | .ldyImm _ => 0xA0
  | .ldyZp _ => 0xA4
  | .ldyZpx _ => 0xB4
  | .ldyAbs _ => 0xAC
  | .ldyAbx _ => 0xBC
  | .staZp _ => 0x85
  | .staZpx _ => 0x95
  | .staAbs _ => 0x8D
  | .staAbx _ => 0x9D
  | .staAby _ => 0x99
  | .stxZp _ => 0x86
  | .stxZpy _ => 0x96
  | .stxAbs _ => 0x8E
  | .styZp _ => 0x84
  | .styZpx _ => 0x94
  | .styAbs _ => 0x8C
  | .adcImm _ => 0x69
  | .adcZp _ => 0x65
  | .adcZpx _ => 0x75
  | .adcAbs _ => 0x6D
  | .adcAbx _ => 0x7D
  | .adcAby _ => 0x79
  | .andImm _ => 0x29
  | .andZp _ => 0x25
  | .andZpx _ => 0x35
  | .andAbs _ => 0x2D
  | .andAbx _ => 0x3D
  | .andAby _ => 0x39
  | .tax => 0xAA
  | .tay => 0xA8
  | .txa => 0x8A
  | .tya => 0x98
  | .inx => 0xE8
  | .iny => 0xC8
  | .dex => 0xCA
  | .dey => 0x88
  | .jmp _ => 0x4C
  | .jsr _ => 0x20
  | .rts => 0x60
  | .pha => 0x48
  | .pla => 0x68
  | .brk => 0x00

/-- The operand bytes in memory order, the low byte of a word first (30_encoding.md R62 to R64). -/
def Instr.operandBytes : Instr → List Byte
  | .ldaImm b | .ldaZp b | .ldaZpx b | .ldxImm b | .ldxZp b | .ldxZpy b | .ldyImm b
    | .ldyZp b | .ldyZpx b | .staZp b | .staZpx b | .stxZp b | .stxZpy b | .styZp b
    | .styZpx b | .adcImm b | .adcZp b | .adcZpx b | .andImm b | .andZp b | .andZpx b => [b]
  | .ldaAbs w | .ldaAbx w | .ldaAby w | .ldxAbs w | .ldxAby w | .ldyAbs w | .ldyAbx w
    | .staAbs w | .staAbx w | .staAby w | .stxAbs w | .styAbs w | .adcAbs w | .adcAbx w
    | .adcAby w | .andAbs w | .andAbx w | .andAby w | .jmp w | .jsr w => [lowByte w, highByte w]
  | .tax | .tay | .txa | .tya | .inx | .iny | .dex
    | .dey | .rts | .pha | .pla | .brk => []

/-- The bytes of an instruction, in memory order. -/
def encode (i : Instr) : List Byte := i.opcode :: i.operandBytes

/-- Byte `k` of a table word of `nbits` bits: bit 0 is bit 0 of the first byte, later bytes count on from
it, and every bit at or above `nbits` is 0. -/
def tableByte (nbits w k : Nat) : Byte := BitVec.ofNat 8 ((w % 2 ^ nbits) >>> (8 * k))

/-- A table word laid out in memory order, padded with zero bytes to the longest instruction. -/
def tableBytes (nbits w : Nat) : List Byte := [tableByte nbits w 0, tableByte nbits w 1, tableByte nbits w 2]

/-- The instruction the decoder reads from a table word. -/
def decodeTableWord (nbits w : Nat) : Option Instr := (decode (tableBytes nbits w)).instr?

end Sys2Proof
end

