-- ==== Sys2Proof/Machine/Fetch.lean ====
section
/-! DEFINITION. Instruction fetch (40_step_and_addressing.md R80 to R84), what a step returns besides the
state (R98, 60_exceptions.md R160), and placing an instruction word at PC. -/

namespace Sys2Proof.Machine

/-- The byte a step reads as its opcode (40_step_and_addressing.md R80). -/
def opcodeAtPc (s : State) : Byte := memRead s s.pc.toNat

/-- The fetch of one instruction: none where the opcode is unpopulated (R81); otherwise the instruction and
the state with PC past the opcode byte (R82) and past the operand bytes (R83, R84). -/
def fetchInstr (s : State) : Option (Instr × State) :=
  match lookup (opcodeAtPc s) with
  | none => none
  | some e =>
    let s1 := s.setPc (s.pc + 1)
    match e.executor with
    | .imp i => some (i, s1)
    | .b8 f =>
      let r := fetchByte s1
      some (f r.1, r.2)
    | .w16 f =>
      let r := fetchWord s1
      some (f r.1, r.2)

/-- The two outcomes of a `Step` (60_exceptions.md R160). -/
inductive StepOutcome where
  | executed
  | unknownOpcode (op : Byte)
  deriving DecidableEq, Repr

/-- The outcome's numeric code (60_exceptions.md R160). -/
def StepOutcome.code : StepOutcome → Nat
  | .executed => 0
  | .unknownOpcode _ => 1

/-- What a `Step` returns: outputs of the transaction, not state (10_state.md R37). -/
structure StepReturn where
  outcome : StepOutcome
  cycles  : Nat
  deriving DecidableEq, Repr

/-- The outcome and cycle count of a `Step` from this state (40_step_and_addressing.md R80, R81, R98). -/
def stepReturn (s : State) : StepReturn :=
  match lookup (opcodeAtPc s) with
  | none => ⟨.unknownOpcode (opcodeAtPc s), 0⟩
  | some e => ⟨.executed, e.cycles⟩

/-- Bytes written to consecutive addresses. -/
def writeBytes : List Byte → Nat → State → State
  | [], _, s => s
  | b :: bs, addr, s => writeBytes bs (addr + 1) (memWrite s addr b)

end Sys2Proof.Machine
end

