-- ==== Sys2Proof/Machine/Step.lean ====
section
/-! DEFINITION. The Step transaction (40_step_and_addressing.md R80, R81). -/

namespace Sys2Proof.Machine

/-- One `Step`: the instruction at PC is fetched and executed; an unpopulated opcode leaves the state as it
is (R81, the idempotent stall; log entry 8). The outcome and cycle count are `stepReturn`. -/
def step (s : State) : Host.Outcome State Fault Refusal :=
  match fetchInstr s with
  | none => .next s
  | some (i, s1) => exec i s1

/-- The state with a table word's bytes stored at PC, where the next step fetches (log entry 13). -/
def State.withFetchWord (s : State) (nbits w : Nat) : State := writeBytes (tableBytes nbits w) s.pc.toNat s

end Sys2Proof.Machine
end

