-- ==== Sys2Proof/Machine/Disassembler.lean ====
section
/-! DEFINITION. The disassembler (46_disassembler.md R150 to R155): a read of the instruction at an address
as text, through the same table as execution. -/

namespace Sys2Proof.Machine

/-- One hexadecimal digit (46_disassembler.md R153). -/
def hexDigit (c : Config.HexCase) (n : Nat) : Char :=
  let digits := match c with
    | .upper => "0123456789ABCDEF"
    | .lower => "0123456789abcdef"
  digits.toList.getD n '?'

/-- `hex2`: exactly two digits (46_disassembler.md R153). -/
def hex2 (b : Byte) : String :=
  String.ofList [hexDigit Config.hexCase (b.toNat / 16), hexDigit Config.hexCase (b.toNat % 16)]

/-- `hex4`: exactly four digits, the high byte first (46_disassembler.md R153). -/
def hex4 (w : Word) : String := hex2 (highByte w) ++ hex2 (lowByte w)

/-- `OperandText(mode, bytes)` (46_disassembler.md R153, 30_encoding.md R71). -/
def operandText (m : Mode) (bytes : List Byte) : String :=
  let b1 := bytes.getD 1 0
  let w := wordOf b1 (bytes.getD 2 0)
  match m with
  | .imm => "#$" ++ hex2 b1
  | .zp => "$" ++ hex2 b1
  | .zpx => "$" ++ hex2 b1 ++ ",X"
  | .zpy => "$" ++ hex2 b1 ++ ",Y"
  | .abs => "$" ++ hex4 w
  | .abx => "$" ++ hex4 w ++ ",X"
  | .aby => "$" ++ hex4 w ++ ",Y"
  | .imp => ""

/-- The mnemonic in capitals (30_encoding.md R71). -/
def mnemonicText : Mnemonic → String
  | .lda => "LDA" | .ldx => "LDX" | .ldy => "LDY" | .sta => "STA" | .stx => "STX" | .sty => "STY"
  | .adc => "ADC" | .and => "AND" | .tax => "TAX" | .tay => "TAY" | .txa => "TXA" | .tya => "TYA"
  | .inx => "INX" | .iny => "INY" | .dex => "DEX" | .dey => "DEY" | .jmp => "JMP" | .jsr => "JSR"
  | .rts => "RTS" | .pha => "PHA" | .pla => "PLA" | .brk => "BRK"

/-- The value record of one disassembled instruction (46_disassembler.md R150). -/
structure DisassembledInstruction where
  address  : Nat
  bytes    : List Byte
  mnemonic : String
  operand  : String
  comment  : String
  deriving DecidableEq, Repr

/-- `Disassemble(address)` (46_disassembler.md R151, R152). -/
def disassemble (s : State) (address : Nat) : DisassembledInstruction :=
  let op := memRead s address
  match lookup op with
  | none => ⟨address, [op], "???", "", "Unknown opcode"⟩
  | some e =>
    let bytes := bytesFrom s address (1 + e.mode.operandBytes)
    ⟨address, bytes, mnemonicText e.mnemonic, operandText e.mode bytes,
      Config.disasmComment e.mnemonic e.mode⟩

end Sys2Proof.Machine
end

