-- ==== Sys2Proof/Machine/Transactions.lean ====
section
/-! DEFINITION. The host interface (60_exceptions.md R170): the indivisible transactions that drive the
block, each with what the host gives and gets. `Step` is one of them. -/

namespace Sys2Proof.Machine

/-- The register names (10_state.md R20). -/
inductive Reg where
  | a | x | y | sp | pc | p
  deriving DecidableEq, Repr

/-- A host read of a register (60_exceptions.md R171). -/
def readReg : Reg → State → Nat
  | .a, s => s.a.toNat
  | .x, s => s.x.toNat
  | .y, s => s.y.toNat
  | .sp, s => s.sp.toNat
  | .pc, s => s.pc.toNat
  | .p, s => s.p.toNat

/-- A host write of a register, reduced to its width (60_exceptions.md R171; log entry 7). -/
def writeReg : Reg → Nat → State → State
  | .a, v, s => s.setA (BitVec.ofNat 8 v)
  | .x, v, s => s.setX (BitVec.ofNat 8 v)
  | .y, v, s => s.setY (BitVec.ofNat 8 v)
  | .sp, v, s => s.setSp (BitVec.ofNat 8 v)
  | .pc, v, s => s.setPc (BitVec.ofNat 16 v)
  | .p, v, s => s.setP (BitVec.ofNat 8 v)

/-- `LoadProgram`'s copy: a byte whose address would exceed 0xFFFF is dropped (20_memory.md R50). -/
def loadBytes : List Byte → Nat → State → State
  | [], _, s => s
  | b :: bs, addr, s => loadBytes bs (addr + 1) (if addr ≤ 0xFFFF then memWrite s addr b else s)

/-- `Dump(start, length)`, clipped to the address range (20_memory.md R52). -/
def dump (start length : Nat) (s : State) : List Byte :=
  bytesFrom s start (min (start + length) 0x10000 - start)

/-- `Clear()`: the entire store is zeroed (20_memory.md R53). Nothing is listed, and an unlisted byte reads
as 0x00. -/
def clearMemory (s : State) : State := s.setMem []

/-- The transactions (60_exceptions.md R170), with what the host gives. Addresses and values are
unbounded numbers, reduced where their rule reduces them. -/
inductive Transaction where
  | reset
  | step
  | readReg (r : Reg)
  | writeReg (r : Reg) (v : Nat)
  | push (v : Nat)
  | pop
  | disassemble (address : Nat)
  | readByte (addr : Nat)
  | writeByte (addr v : Nat)
  | readWord (addr : Nat)
  | writeWord (addr v : Nat)
  | loadProgram (bytes : List Byte) (origin : Nat)
  | dump (start length : Nat)
  | clear
  deriving DecidableEq, Repr

/-- What the host gets back. -/
inductive Reply where
  | nothing
  | stepped (r : StepReturn)
  | value (v : Nat)
  | bytes (bs : List Byte)
  | record (d : DisassembledInstruction)
  deriving DecidableEq, Repr

/-- One transaction: the next state and the reply (60_exceptions.md R170). -/
def transact : Transaction → State → Host.Outcome (State × Reply) Fault Refusal
  | .reset, s => .next (resetTransaction s, .nothing)
  | .step, s =>
    match step s with
    | .next t => .next (t, .stepped (stepReturn s))
    | .fault f => .fault f
    | .refused r => .refused r
  | .readReg r, s => .next (s, .value (readReg r s))
  | .writeReg r v, s => .next (writeReg r v s, .nothing)
  | .push v, s => .next (Machine.push (BitVec.ofNat 8 v) s, .nothing)
  | .pop, s => .next ((Machine.pop s).2, .value (Machine.pop s).1.toNat)
  | .disassemble a, s =>
    if a ≤ 0xFFFF then .next (s, .record (Machine.disassemble s a))
    else .refused (.disassembleAddressOutOfRange a)
  | .readByte a, s => .next (s, .value (memRead s a).toNat)
  | .writeByte a v, s => .next (memWrite s a (BitVec.ofNat 8 v), .nothing)
  | .readWord a, s => .next (s, .value (Machine.readWord s a).toNat)
  | .writeWord a v, s => .next (Machine.writeWord s a (BitVec.ofNat 16 v), .nothing)
  | .loadProgram bs origin, s =>
    if origin ≤ 0xFFFF then .next (loadBytes bs origin s, .nothing)
    else .refused (.loadOriginOutOfRange origin)
  | .dump start length, s => .next (s, .bytes (Machine.dump start length s))
  | .clear, s => .next (clearMemory s, .nothing)

end Sys2Proof.Machine
end

