-- ==== Sys2Proof/Safety.lean ====
section
/-! DEFINITION. The terms claims are stated in: the invariant, where a run stands still, which instruction
stands at PC, and what a transition leaves unchanged. -/

namespace Sys2Proof.Machine

/-- The invariant of every state: the memory list has its canonical form (log entry 18). -/
def Canonical (s : State) : Prop := Memory.wf s.mem = true

/-- The core is stalled: the byte at PC is unpopulated (60_exceptions.md R161). -/
def Stalled (s : State) : Prop := populated (opcodeAtPc s) = false

/-- A run ends at a named address and byte (60_exceptions.md R174): after at most `fuel` steps the core is
stalled there. -/
def RunEndsAt (s : State) (fuel : Nat) (addr : Word) (op : Byte) : Prop :=
  ∃ t, Sys2Proof.core.run fuel s = .next t ∧ t.pc = addr ∧ opcodeAtPc t = op ∧ Stalled t

/-- The opcode at PC is one of these mnemonics. -/
def MnemonicAtPc (ms : List Mnemonic) (s : State) : Prop :=
  ∃ e, lookup (opcodeAtPc s) = some e ∧ e.mnemonic ∈ ms

/-- Z and N follow the byte: Z iff it is zero, N iff it is at least 0x80 (40_step_and_addressing.md R93). -/
def NZFollow (v : Byte) (t : State) : Prop :=
  t.flag .z = decide (v = 0) ∧ t.flag .n = decide (128 ≤ v.toNat)

/-- Every register outside the list is unchanged. -/
def SameRegistersExcept (rs : List Reg) (s t : State) : Prop := ∀ r, r ∉ rs → readReg r t = readReg r s

/-- Every bit of P outside the list is unchanged. -/
def SameFlagsExcept (fs : List Flag) (s t : State) : Prop := ∀ f, f ∉ fs → t.flag f = s.flag f

/-- Every byte of memory outside the listed addresses reads as before. -/
def SameMemoryExcept (addrs : List Nat) (s t : State) : Prop :=
  ∀ k, maskAddr k ∉ addrs.map maskAddr → memRead t k = memRead s k

/-- Every byte of memory reads as before. -/
def SameMemory (s t : State) : Prop := ∀ k, memRead t k = memRead s k

end Sys2Proof.Machine
end

