-- ==== Sys2Proof/Certificates/Slice0/Obligations.lean ====
section
/-! DEFINITION. What is claimed of the model, one statement per rule or group of rules of the spec. `exec i s`
takes a state whose PC is already past the bytes of `i` (log entry 15); log entries are notes/assumptions. -/

open Sys2Proof Sys2Proof.Machine

/-- A9 followed by any byte b decodes to LDA in mode IMM with operand b; 8D followed by two bytes decodes to STA
in mode ABS with the little-endian word of the two; 00 decodes to BRK; FF is unpopulated and decodes to no
instruction. Rule R66. -/
def Obligations.SourceShownBytesDecodeAsShown : Prop :=
  ∀ (b lo hi : Byte) (rest : List Byte),
    decode (0xA9 :: b :: rest) = .ok (.ldaImm b) rest ∧
    decode (0x8D :: lo :: hi :: rest) = .ok (.staAbs (wordOf lo hi)) rest ∧
    decode (0x00 :: rest) = .ok .brk rest ∧
    decode (0xFF :: rest) = .unknownOpcode 0xFF

/-- For each of the 53 (mnemonic, mode) pairs: the opcode byte R67 gives the pair, written out here, followed by
any operand bytes of its format (none, one, or the low and the high byte of a word) and any further bytes,
decodes to that instruction with that operand and leaves the further bytes. The bytes other than A9, 8D and 00
and the set of pairs are the spec's decisions D3, D4 and D17 (log entry 1). Rests on 30_encoding.md section 3
(opcode map), 30_encoding.md section 2 (formats), 92_eei_decisions.md D3, D4, D17. -/
def Obligations.EveryRowsBytesDecodeToItsInstruction : Prop :=
  ∀ (b lo hi : Byte) (rest : List Byte),
    decode (0xA9 :: b :: rest) = .ok (.ldaImm b) rest ∧
    decode (0xA5 :: b :: rest) = .ok (.ldaZp b) rest ∧
    decode (0xB5 :: b :: rest) = .ok (.ldaZpx b) rest ∧
    decode (0xAD :: lo :: hi :: rest) = .ok (.ldaAbs (wordOf lo hi)) rest ∧
    decode (0xBD :: lo :: hi :: rest) = .ok (.ldaAbx (wordOf lo hi)) rest ∧
    decode (0xB9 :: lo :: hi :: rest) = .ok (.ldaAby (wordOf lo hi)) rest ∧
    decode (0xA2 :: b :: rest) = .ok (.ldxImm b) rest ∧
    decode (0xA6 :: b :: rest) = .ok (.ldxZp b) rest ∧
    decode (0xB6 :: b :: rest) = .ok (.ldxZpy b) rest ∧
    decode (0xAE :: lo :: hi :: rest) = .ok (.ldxAbs (wordOf lo hi)) rest ∧
    decode (0xBE :: lo :: hi :: rest) = .ok (.ldxAby (wordOf lo hi)) rest ∧
    decode (0xA0 :: b :: rest) = .ok (.ldyImm b) rest ∧
    decode (0xA4 :: b :: rest) = .ok (.ldyZp b) rest ∧
    decode (0xB4 :: b :: rest) = .ok (.ldyZpx b) rest ∧
    decode (0xAC :: lo :: hi :: rest) = .ok (.ldyAbs (wordOf lo hi)) rest ∧
    decode (0xBC :: lo :: hi :: rest) = .ok (.ldyAbx (wordOf lo hi)) rest ∧
    decode (0x85 :: b :: rest) = .ok (.staZp b) rest ∧
    decode (0x95 :: b :: rest) = .ok (.staZpx b) rest ∧
    decode (0x8D :: lo :: hi :: rest) = .ok (.staAbs (wordOf lo hi)) rest ∧
    decode (0x9D :: lo :: hi :: rest) = .ok (.staAbx (wordOf lo hi)) rest ∧
    decode (0x99 :: lo :: hi :: rest) = .ok (.staAby (wordOf lo hi)) rest ∧
    decode (0x86 :: b :: rest) = .ok (.stxZp b) rest ∧
    decode (0x96 :: b :: rest) = .ok (.stxZpy b) rest ∧
    decode (0x8E :: lo :: hi :: rest) = .ok (.stxAbs (wordOf lo hi)) rest ∧
    decode (0x84 :: b :: rest) = .ok (.styZp b) rest ∧
    decode (0x94 :: b :: rest) = .ok (.styZpx b) rest ∧
    decode (0x8C :: lo :: hi :: rest) = .ok (.styAbs (wordOf lo hi)) rest ∧
    decode (0x69 :: b :: rest) = .ok (.adcImm b) rest ∧
    decode (0x65 :: b :: rest) = .ok (.adcZp b) rest ∧
    decode (0x75 :: b :: rest) = .ok (.adcZpx b) rest ∧
    decode (0x6D :: lo :: hi :: rest) = .ok (.adcAbs (wordOf lo hi)) rest ∧
    decode (0x7D :: lo :: hi :: rest) = .ok (.adcAbx (wordOf lo hi)) rest ∧
    decode (0x79 :: lo :: hi :: rest) = .ok (.adcAby (wordOf lo hi)) rest ∧
    decode (0x29 :: b :: rest) = .ok (.andImm b) rest ∧
    decode (0x25 :: b :: rest) = .ok (.andZp b) rest ∧
    decode (0x35 :: b :: rest) = .ok (.andZpx b) rest ∧
    decode (0x2D :: lo :: hi :: rest) = .ok (.andAbs (wordOf lo hi)) rest ∧
    decode (0x3D :: lo :: hi :: rest) = .ok (.andAbx (wordOf lo hi)) rest ∧
    decode (0x39 :: lo :: hi :: rest) = .ok (.andAby (wordOf lo hi)) rest ∧
    decode (0xAA :: rest) = .ok .tax rest ∧
    decode (0xA8 :: rest) = .ok .tay rest ∧
    decode (0x8A :: rest) = .ok .txa rest ∧
    decode (0x98 :: rest) = .ok .tya rest ∧
    decode (0xE8 :: rest) = .ok .inx rest ∧
    decode (0xC8 :: rest) = .ok .iny rest ∧
    decode (0xCA :: rest) = .ok .dex rest ∧
    decode (0x88 :: rest) = .ok .dey rest ∧
    decode (0x4C :: lo :: hi :: rest) = .ok (.jmp (wordOf lo hi)) rest ∧
    decode (0x20 :: lo :: hi :: rest) = .ok (.jsr (wordOf lo hi)) rest ∧
    decode (0x60 :: rest) = .ok .rts rest ∧
    decode (0x48 :: rest) = .ok .pha rest ∧
    decode (0x68 :: rest) = .ok .pla rest ∧
    decode (0x00 :: rest) = .ok .brk rest

/-- For each of the 53 instructions with every operand value, and any bytes after it, the decoder reads from the
encoder's bytes exactly that instruction and leaves exactly the bytes after it. Rests on 30_encoding.md
sections 1 to 3, opcode_table.json. -/
def Obligations.DecodingAnEncodingGivesTheInstructionBack : Prop :=
  ∀ (i : Instr) (rest : List Byte), decode (encode i ++ rest) = .ok i rest

/-- If the decoder reads an instruction from a byte list and leaves some bytes, then the list is the encoding of
that instruction followed by the bytes left: no two byte strings decode to one instruction. Rests on
30_encoding.md sections 1 to 3, opcode_table.json. -/
def Obligations.EveryDecodedInstructionHasOnlyItsOwnBytes : Prop :=
  ∀ (bs : List Byte) (i : Instr) (rest : List Byte), decode bs = .ok i rest → bs = encode i ++ rest

/-- Every encoding is 1 byte long in mode IMP, 2 in IMM, ZP, ZPX, ZPY and 3 in ABS, ABX, ABY; and two byte lists
with the same first byte that both decode give instructions of the same mode and length. Rule R61. -/
def Obligations.LengthFollowsTheModeOfTheFirstByte : Prop :=
  (∀ i : Instr, (encode i).length =
      match i.mode with
      | .imp => 1
      | .imm | .zp | .zpx | .zpy => 2
      | .abs | .abx | .aby => 3) ∧
    ∀ (op : Byte) (bs bs' : List Byte) (i j : Instr) (r r' : List Byte),
      decode (op :: bs) = .ok i r → decode (op :: bs') = .ok j r' → i.mode = j.mode ∧ (encode i).length = (encode j).length

/-- Over the 256 byte values in order, the populated bytes with the mnemonic and mode of their entries are exactly
the 53 of the R67 map, written out here; no two bytes have one pair; a mnemonic and a mode stand at some byte
exactly when the mnemonic takes that mode; 203 byte values are unpopulated. The bytes and the set are the
spec's decisions D3, D4 and D17 (log entry 1). Rests on 30_encoding.md section 3 (opcode map),
92_eei_decisions.md D3, D4, D17. -/
def Obligations.ExactlyTheMappedPairsArePopulated : Prop :=
  let ops : List Byte := (List.range 256).map (BitVec.ofNat 8)
    let found := ops.filterMap fun op => (lookup op).map fun e => (op, e.mnemonic, e.mode)
    let map1 : List (Byte × Mnemonic × Mode) :=
      [(0x00, .brk, .imp), (0x20, .jsr, .abs), (0x25, .and, .zp), (0x29, .and, .imm), (0x2D, .and, .abs),
        (0x35, .and, .zpx), (0x39, .and, .aby), (0x3D, .and, .abx), (0x48, .pha, .imp), (0x4C, .jmp, .abs),
        (0x60, .rts, .imp), (0x65, .adc, .zp), (0x68, .pla, .imp), (0x69, .adc, .imm), (0x6D, .adc, .abs),
        (0x75, .adc, .zpx), (0x79, .adc, .aby), (0x7D, .adc, .abx)]
    let map2 : List (Byte × Mnemonic × Mode) :=
      [(0x84, .sty, .zp), (0x85, .sta, .zp), (0x86, .stx, .zp), (0x88, .dey, .imp), (0x8A, .txa, .imp),
        (0x8C, .sty, .abs), (0x8D, .sta, .abs), (0x8E, .stx, .abs), (0x94, .sty, .zpx), (0x95, .sta, .zpx),
        (0x96, .stx, .zpy), (0x98, .tya, .imp), (0x99, .sta, .aby), (0x9D, .sta, .abx)]
    let map3 : List (Byte × Mnemonic × Mode) :=
      [(0xA0, .ldy, .imm), (0xA2, .ldx, .imm), (0xA4, .ldy, .zp), (0xA5, .lda, .zp), (0xA6, .ldx, .zp),
        (0xA8, .tay, .imp), (0xA9, .lda, .imm), (0xAA, .tax, .imp), (0xAC, .ldy, .abs), (0xAD, .lda, .abs),
        (0xAE, .ldx, .abs)]
    let map4 : List (Byte × Mnemonic × Mode) :=
      [(0xB4, .ldy, .zpx), (0xB5, .lda, .zpx), (0xB6, .ldx, .zpy), (0xB9, .lda, .aby), (0xBC, .ldy, .abx),
        (0xBD, .lda, .abx), (0xBE, .ldx, .aby), (0xC8, .iny, .imp), (0xCA, .dex, .imp), (0xE8, .inx, .imp)]
    let pairs := found.map Prod.snd
    let taken : List (Mnemonic × Mode) := [Mnemonic.lda, .ldx, .ldy, .sta, .stx, .sty, .adc, .and, .tax, .tay, .txa, .tya,
      .inx, .iny, .dex, .dey, .jmp, .jsr, .rts, .pha, .pla, .brk].flatMap fun m => m.modes.map fun d => (m, d)
    found = map1 ++ map2 ++ map3 ++ map4 ∧ found.length = 53 ∧ pairs.Nodup ∧ (∀ r ∈ taken, r ∈ pairs) ∧ (∀ r ∈ pairs, r ∈ taken) ∧
      (ops.filter fun op => !populated op).length = 203

/-- When the bytes at PC decode, the step returns the outcome Executed and the base count of the opcode at PC: 2
for IMM and IMP, 3 for ZP, 4 for ZPX, ZPY, ABS, ABX and ABY, except STA indexed absolute 5, JMP 3, JSR and RTS
6, PHA 3, PLA 4, BRK 7. Nothing else of the state matters. The values are the spec's decision D5 (log entry
2). Rests on 40_step_and_addressing.md sections 1 and 5, 70_reset_and_hazards.md section 4,
92_eei_decisions.md D5. -/
def Obligations.NominalCyclesAreTheBaseCounts : Prop :=
  ∀ (s : State) (i : Instr) (rest : List Byte), decode (bytesFrom s s.pc.toNat 3) = .ok i rest →
      (stepReturn s).outcome = .executed ∧
      (stepReturn s).cycles =
        match i.mnemonic, i.mode with
        | .sta, .abx | .sta, .aby => 5
        | .jmp, _ | .pha, _ => 3
        | .jsr, _ | .rts, _ => 6
        | .brk, _ => 7
        | .pla, _ => 4
        | _, .imm | _, .imp => 2
        | _, .zp => 3
        | _, _ => 4

/-- A byte read and a byte write at an address are those at the address reduced mod 65536; after a byte write the
addressed byte reads as written, every other byte reads as before, and no register changes. The host byte
write reduces its value mod 256, and the host byte read changes nothing. Rule R41, R42. -/
def Obligations.ByteAccessesReduceTheAddressAndReadTheLastWrite : Prop :=
  ∀ (s : State) (addr k : Nat) (v : Byte),
      memRead s addr = memRead s (addr % 65536) ∧ memWrite s addr v = memWrite s (addr % 65536) v ∧
      memRead (memWrite s addr v) addr = v ∧ SameMemoryExcept [addr] s (memWrite s addr v) ∧
      SameRegistersExcept [] s (memWrite s addr v) ∧ (k % 65536 = addr % 65536 → memRead (memWrite s addr v) k = v) ∧
      transact (.writeByte addr (v.toNat + 256 * k)) s = .next (memWrite s addr v, .nothing) ∧
      transact (.readByte addr) s = .next (s, .value (memRead s addr).toNat)

/-- A word read is the byte at addr plus 256 times the byte at addr + 1, both addresses mod 65536. For every
address and value the host word write completes, changes only the two bytes and no register, leaves value mod
256 at addr, and the host word read after it returns the value mod 65536. Rests on 20_memory.md sections 1, 2
and 4, 90_conflicts.md C5. -/
def Obligations.WordsAreLittleEndianAndRoundTripEverywhere : Prop :=
  ∀ (s : State) (addr v : Nat),
      (readWord s addr).toNat = (memRead s addr).toNat + 256 * (memRead s (addr + 1)).toNat ∧
      ∃ t, transact (.writeWord addr v) s = .next (t, .nothing) ∧ SameMemoryExcept [addr, addr + 1] s t ∧
        SameRegistersExcept [] s t ∧ (memRead t addr).toNat = v % 256 ∧
        transact (.readWord addr) t = .next (t, .value (v % 65536))

/-- FetchByte returns the byte at PC and adds 1 to PC mod 65536; FetchWord returns the little-endian word at PC
(its high byte at PC + 1 mod 65536) and adds 2 to PC mod 65536; nothing else changes. Rule R83, R84. -/
def Obligations.FetchByteAndFetchWordConsume : Prop :=
  ∀ s : State,
      (fetchByte s).1 = memRead s s.pc.toNat ∧ (fetchByte s).2.pc.toNat = (s.pc.toNat + 1) % 65536 ∧
      SameRegistersExcept [.pc] s (fetchByte s).2 ∧ SameMemory s (fetchByte s).2 ∧
      (fetchWord s).1.toNat = (memRead s s.pc.toNat).toNat + 256 * (memRead s ((s.pc.toNat + 1) % 65536)).toNat ∧
      (fetchWord s).2.pc.toNat = (s.pc.toNat + 2) % 65536 ∧
      SameRegistersExcept [.pc] s (fetchWord s).2 ∧ SameMemory s (fetchWord s).2

/-- ZP is the operand byte; ZPX and ZPY are the operand byte plus X or Y mod 256, so they stay in page zero; ABS
is the operand word; ABX and ABY are the operand word plus X or Y, not masked. A reading instruction takes the
operand byte itself in mode IMM and otherwise the memory byte at the effective address reduced mod 65536.
Rests on 40_step_and_addressing.md section 2, 30_encoding.md section 2. -/
def Obligations.EffectiveAddressesOfTheModes : Prop :=
  ∀ (s : State) (b : Byte) (w : Word),
      (Address.zp b).ea s = b.toNat ∧
      (Address.zpx b).ea s = (b.toNat + s.x.toNat) % 256 ∧ (Address.zpy b).ea s = (b.toNat + s.y.toNat) % 256 ∧
      (Address.abs w).ea s = w.toNat ∧
      (Address.abx w).ea s = w.toNat + s.x.toNat ∧ (Address.aby w).ea s = w.toNat + s.y.toNat ∧
      (Address.abx w).ea s ≤ 0x100FE ∧ (Address.aby w).ea s ≤ 0x100FE ∧
      (Source.imm b).value s = b ∧ ∀ o : Address, (Source.mem o).value s = memRead s (o.ea s % 65536)

/-- Setting a flag is OR with its mask, clearing it is AND with the complement, reading it tests the mask; after a
flag write that flag reads as written and every other flag as before. Rule R26. -/
def Obligations.FlagWritesChangeOneBitByItsMask : Prop :=
  ∀ (f g : Machine.Flag) (on : Bool) (p : Byte),
      setFlag f true p = p ||| f.mask ∧ setFlag f false p = p &&& ~~~f.mask ∧
      getFlag f p = decide (p &&& f.mask ≠ 0) ∧
      getFlag g (setFlag f on p) = if g = f then on else getFlag g p

/-- The masks are C 0x01, Z 0x02, I 0x04, D 0x08, B 0x10, the unnamed bit 0x20, V 0x40, N 0x80, and P as a number
is the sum of the masks of the flags that are set. Rests on 10_state.md section 2. -/
def Obligations.StatusByteIsTheSumOfItsFlagMasks : Prop :=
  ∀ p : Byte,
      p.toNat = 1 * (getFlag .c p).toNat + 2 * (getFlag .z p).toNat + 4 * (getFlag .i p).toNat +
        8 * (getFlag .d p).toNat + 16 * (getFlag .b p).toNat + 32 * (getFlag .bit5 p).toNat +
        64 * (getFlag .v p).toNat + 128 * (getFlag .n p).toNat

/-- After UpdateNZ(v), Z is set iff v = 0 and N iff v is at least 0x80; every other bit of P, every other register
and every byte of memory is unchanged. Rule R93. -/
def Obligations.UpdateNzWritesZeroAndNegativeOnly : Prop :=
  ∀ (v : Byte) (s : State),
      NZFollow v (updateNZ v s) ∧ SameFlagsExcept [.z, .n] s (updateNZ v s) ∧
      SameRegistersExcept [.p] s (updateNZ v s) ∧ SameMemory s (updateNZ v s)

/-- Push stores the byte at 0x0100 + SP, leaves every other byte, and decrements SP mod 256. Pop increments SP mod
256, returns the byte at 0x0100 + the new SP, and leaves memory. No other register changes, and the address is
always in 0x0100 to 0x01FF. Rule R95, R96. -/
def Obligations.PushStoresBelowAndPopReadsAbove : Prop :=
  ∀ (v : Byte) (s : State),
      memRead (push v s) (0x0100 + s.sp.toNat) = v ∧ SameMemoryExcept [0x0100 + s.sp.toNat] s (push v s) ∧
      (push v s).sp.toNat = (s.sp.toNat + 255) % 256 ∧ SameRegistersExcept [.sp] s (push v s) ∧
      (pop s).2.sp.toNat = (s.sp.toNat + 1) % 256 ∧ (pop s).1 = memRead s (0x0100 + (s.sp.toNat + 1) % 256) ∧
      SameRegistersExcept [.sp] s (pop s).2 ∧ SameMemory s (pop s).2 ∧
      0x0100 ≤ stackAddr s.sp ∧ stackAddr s.sp ≤ 0x01FF

/-- For every state and byte b, the host transactions push(b) and then pop() return b and leave SP, and every
other register, as before the pair. Rule R172. -/
def Obligations.HostPopReturnsTheBytePushed : Prop :=
  ∀ (s : State) (v : Nat),
      ∃ t u, transact (.push v) s = .next (t, .nothing) ∧ t = Machine.push (BitVec.ofNat 8 v) s ∧
        transact .pop t = .next (u, .value (v % 256)) ∧ u = (Machine.pop t).2 ∧ SameRegistersExcept [] s u

/-- In each of its modes LDA completes from every state: A is the operand (the immediate byte, or the byte at the
mode's effective address with its wrap), Z and N follow it, and every other flag, register and byte of memory
is unchanged. PC is already past the instruction on entry. Rule R100. -/
def Obligations.LdaLoadsItsOperandInEveryMode : Prop :=
  ∀ (s : State) (b : Byte) (w : Word),
    let Loads : Instr → Byte → Prop := fun i v => ∃ t, exec i s = .next t ∧ t.a = v ∧ NZFollow v t ∧
      SameRegistersExcept [.a, .p] s t ∧ SameFlagsExcept [.z, .n] s t ∧ SameMemory s t
    Loads (.ldaImm b) b ∧
    Loads (.ldaZp b) (memRead s b.toNat) ∧
    Loads (.ldaZpx b) (memRead s ((b.toNat + s.x.toNat) % 256)) ∧
    Loads (.ldaAbs w) (memRead s w.toNat) ∧
    Loads (.ldaAbx w) (memRead s ((w.toNat + s.x.toNat) % 65536)) ∧
    Loads (.ldaAby w) (memRead s ((w.toNat + s.y.toNat) % 65536))

/-- In each of its modes LDX completes from every state: X is the operand (the immediate byte, or the byte at the
mode's effective address with its wrap), Z and N follow it, and every other flag, register and byte of memory
is unchanged. PC is already past the instruction on entry. Rule R101. -/
def Obligations.LdxLoadsItsOperandInEveryMode : Prop :=
  ∀ (s : State) (b : Byte) (w : Word),
    let Loads : Instr → Byte → Prop := fun i v => ∃ t, exec i s = .next t ∧ t.x = v ∧ NZFollow v t ∧
      SameRegistersExcept [.x, .p] s t ∧ SameFlagsExcept [.z, .n] s t ∧ SameMemory s t
    Loads (.ldxImm b) b ∧
    Loads (.ldxZp b) (memRead s b.toNat) ∧
    Loads (.ldxZpy b) (memRead s ((b.toNat + s.y.toNat) % 256)) ∧
    Loads (.ldxAbs w) (memRead s w.toNat) ∧
    Loads (.ldxAby w) (memRead s ((w.toNat + s.y.toNat) % 65536))

/-- In each of its modes LDY completes from every state: Y is the operand (the immediate byte, or the byte at the
mode's effective address with its wrap), Z and N follow it, and every other flag, register and byte of memory
is unchanged. PC is already past the instruction on entry. Rule R102. -/
def Obligations.LdyLoadsItsOperandInEveryMode : Prop :=
  ∀ (s : State) (b : Byte) (w : Word),
    let Loads : Instr → Byte → Prop := fun i v => ∃ t, exec i s = .next t ∧ t.y = v ∧ NZFollow v t ∧
      SameRegistersExcept [.y, .p] s t ∧ SameFlagsExcept [.z, .n] s t ∧ SameMemory s t
    Loads (.ldyImm b) b ∧
    Loads (.ldyZp b) (memRead s b.toNat) ∧
    Loads (.ldyZpx b) (memRead s ((b.toNat + s.x.toNat) % 256)) ∧
    Loads (.ldyAbs w) (memRead s w.toNat) ∧
    Loads (.ldyAbx w) (memRead s ((w.toNat + s.x.toNat) % 65536))

/-- In each of its modes STA completes from every state: the byte at the mode's effective address is A, every
other byte of memory reads as before, and no register or flag changes. Rule R103. -/
def Obligations.StaStoresAtItsEffectiveAddress : Prop :=
  ∀ (s : State) (b : Byte) (w : Word),
    let Stores : Instr → Address → Prop := fun i o => ∃ t, exec i s = .next t ∧ memRead t (o.ea s) = s.a ∧
      SameMemoryExcept [o.ea s] s t ∧ SameRegistersExcept [] s t
    Stores (.staZp b) (Address.zp b) ∧
    Stores (.staZpx b) (Address.zpx b) ∧
    Stores (.staAbs w) (Address.abs w) ∧
    Stores (.staAbx w) (Address.abx w) ∧
    Stores (.staAby w) (Address.aby w)

/-- In each of its modes STX completes from every state: the byte at the mode's effective address is X, every
other byte of memory reads as before, and no register or flag changes. Rule R104. -/
def Obligations.StxStoresAtItsEffectiveAddress : Prop :=
  ∀ (s : State) (b : Byte) (w : Word),
    let Stores : Instr → Address → Prop := fun i o => ∃ t, exec i s = .next t ∧ memRead t (o.ea s) = s.x ∧
      SameMemoryExcept [o.ea s] s t ∧ SameRegistersExcept [] s t
    Stores (.stxZp b) (Address.zp b) ∧
    Stores (.stxZpy b) (Address.zpy b) ∧
    Stores (.stxAbs w) (Address.abs w)

/-- In each of its modes STY completes from every state: the byte at the mode's effective address is Y, every
other byte of memory reads as before, and no register or flag changes. Rule R105. -/
def Obligations.StyStoresAtItsEffectiveAddress : Prop :=
  ∀ (s : State) (b : Byte) (w : Word),
    let Stores : Instr → Address → Prop := fun i o => ∃ t, exec i s = .next t ∧ memRead t (o.ea s) = s.y ∧
      SameMemoryExcept [o.ea s] s t ∧ SameRegistersExcept [] s t
    Stores (.styZp b) (Address.zp b) ∧
    Stores (.styZpx b) (Address.zpx b) ∧
    Stores (.styAbs w) (Address.abs w)

/-- In each of its modes ADC completes from every state: with sum = A + operand + C, A is sum mod 256, C is set
iff sum > 255, Z and N follow the new A, V is bit 6 of the sum if the parameter ADC_BIT6_TARGET is V and
unchanged if it is N; I, D, B, bit 5, every other register and all of memory are unchanged, whatever D holds.
Rule R110. -/
def Obligations.AdcAddsWithCarryInEveryMode : Prop :=
  ∀ (s : State) (b : Byte) (w : Word),
    let Adds : Instr → Byte → Prop := fun i m =>
      let sum := s.a.toNat + m.toNat + (s.flag .c).toNat
      ∃ t, exec i s = .next t ∧ t.a.toNat = sum % 256 ∧ t.flag .c = decide (sum > 255) ∧ NZFollow t.a t ∧
        t.flag .v = (match Config.adcBit6Target with
          | .v => decide (sum / 64 % 2 = 1)
          | .n => s.flag .v) ∧
        SameRegistersExcept [.a, .p] s t ∧ SameFlagsExcept [.c, .z, .v, .n] s t ∧ SameMemory s t
    Adds (.adcImm b) b ∧
    Adds (.adcZp b) (memRead s b.toNat) ∧
    Adds (.adcZpx b) (memRead s ((b.toNat + s.x.toNat) % 256)) ∧
    Adds (.adcAbs w) (memRead s w.toNat) ∧
    Adds (.adcAbx w) (memRead s ((w.toNat + s.x.toNat) % 65536)) ∧
    Adds (.adcAby w) (memRead s ((w.toNat + s.y.toNat) % 65536))

/-- ADC_BIT6_TARGET is decided V (92_eei_decisions.md D6, log entry 3): after ADC #m, V is bit 6 of the new A for
every A, m and carry; for 0x50 + 0x50 V is 0 and for 0x3F + 0x01 it is 1. Rests on 42_arith_logic.md (ADC),
92_eei_decisions.md D6, 90_conflicts.md C2. -/
def Obligations.AdcWritesOverflowFromBitSix : Prop :=
  Config.adcBit6Target = .v ∧
    (∀ (s : State) (m : Byte), ∃ t, exec (.adcImm m) s = .next t ∧ t.flag .v = t.a.getLsbD 6) ∧
    (∃ t, exec (.adcImm 0x50) { State.reset with a := 0x50 } = .next t ∧ t.flag .v = false) ∧
    (∃ t, exec (.adcImm 0x01) { State.reset with a := 0x3F } = .next t ∧ t.flag .v = true)

/-- In each of its modes AND completes from every state: bit j of A is set iff it was set in both A and the
operand, Z and N follow the new A, and every other flag, register and byte of memory is unchanged. Rule R111. -/
def Obligations.AndMasksTheAccumulatorInEveryMode : Prop :=
  ∀ (s : State) (b : Byte) (w : Word),
    let Ands : Instr → Byte → Prop := fun i m => ∃ t, exec i s = .next t ∧
      (∀ j, t.a.getLsbD j = (s.a.getLsbD j && m.getLsbD j)) ∧ NZFollow t.a t ∧
      SameRegistersExcept [.a, .p] s t ∧ SameFlagsExcept [.z, .n] s t ∧ SameMemory s t
    Ands (.andImm b) b ∧
    Ands (.andZp b) (memRead s b.toNat) ∧
    Ands (.andZpx b) (memRead s ((b.toNat + s.x.toNat) % 256)) ∧
    Ands (.andAbs w) (memRead s w.toNat) ∧
    Ands (.andAbx w) (memRead s ((w.toNat + s.x.toNat) % 65536)) ∧
    Ands (.andAby w) (memRead s ((w.toNat + s.y.toNat) % 65536))

/-- TAX, TAY, TXA and TYA complete from every state: the destination register is the source register's old value,
Z and N follow it, and every other flag, register (the source and SP among them) and byte of memory is
unchanged. Rule R120, R121, R122, R123. -/
def Obligations.TransfersCopyBetweenRegisters : Prop :=
  ∀ s : State,
    let Copies : Instr → Reg → (State → Byte) → Byte → Prop := fun i r dst v => ∃ t, exec i s = .next t ∧ dst t = v ∧
      NZFollow v t ∧ SameRegistersExcept [r, .p] s t ∧ SameFlagsExcept [.z, .n] s t ∧ SameMemory s t
    Copies .tax .x State.x s.a ∧ Copies .tay .y State.y s.a ∧ Copies .txa .a State.a s.x ∧ Copies .tya .a State.a s.y

/-- INX, INY, DEX and DEY complete from every state: the register is its old value plus 1, or plus 255, mod 256; Z
and N follow it; every other flag (C among them), register and byte of memory is unchanged. Rule R124, R125,
R126, R127. -/
def Obligations.IncrementsAndDecrementsWrapModTwoHundredFiftySix : Prop :=
  ∀ s : State,
    let Counts : Instr → Reg → (State → Byte) → Nat → Prop := fun i r reg d => ∃ t, exec i s = .next t ∧
      (reg t).toNat = ((reg s).toNat + d) % 256 ∧ NZFollow (reg t) t ∧
      SameRegistersExcept [r, .p] s t ∧ SameFlagsExcept [.z, .n] s t ∧ SameMemory s t
    Counts .inx .x State.x 1 ∧ Counts .iny .y State.y 1 ∧ Counts .dex .x State.x 255 ∧ Counts .dey .y State.y 255

/-- JMP with target w completes from every state with PC = w and every other register, flag and byte of memory
unchanged; and a step at a JMP opcode byte sets PC to the little-endian word at PC + 1 and PC + 2, both mod
65536. Rests on 44_control.md (JMP), 30_encoding.md section 3 (opcode map). -/
def Obligations.JmpSetsPcToItsOperandWord : Prop :=
  (∀ (s : State) (w : Word), ∃ t, exec (.jmp w) s = .next t ∧ t.pc = w ∧
      SameRegistersExcept [.pc] s t ∧ SameMemory s t) ∧
    ∀ s : State, opcodeAtPc s = 0x4C → ∃ t, step s = .next t ∧
      t.pc.toNat = (memRead s (s.pc.toNat + 1)).toNat + 256 * (memRead s (s.pc.toNat + 2)).toNat ∧
      SameRegistersExcept [.pc] s t ∧ SameMemory s t

/-- JSR with target w completes from every state: with PC past the instruction on entry, the high byte of PC - 1
is at 0x0100 + SP and the low byte one slot below (SP mod 256), SP is 2 less mod 256, PC is w; every other
byte, register and every flag is unchanged. Rule R131. -/
def Obligations.JsrPushesTheAddressOfItsLastByte : Prop :=
  ∀ (s : State) (w : Word), ∃ t, exec (.jsr w) s = .next t ∧
      (memRead t (stackAddr s.sp)).toNat = (s.pc.toNat + 65535) % 65536 / 256 ∧
      (memRead t (stackAddr (s.sp - 1))).toNat = (s.pc.toNat + 65535) % 65536 % 256 ∧
      SameMemoryExcept [stackAddr s.sp, stackAddr (s.sp - 1)] s t ∧
      t.sp.toNat = (s.sp.toNat + 254) % 256 ∧ t.pc = w ∧ SameRegistersExcept [.sp, .pc] s t

/-- RTS completes from every state: PC is 1 + the byte at stack slot SP + 1 + 256 times the byte at slot SP + 2,
mod 65536; SP is 2 more mod 256; every other register, every flag and all of memory are unchanged. Rule R132. -/
def Obligations.RtsPopsLowThenHighAndAddsOne : Prop :=
  ∀ s : State, ∃ t, exec .rts s = .next t ∧
      t.pc.toNat = ((memRead s (stackAddr (s.sp + 1))).toNat + 256 * (memRead s (stackAddr (s.sp + 2))).toNat + 1) % 65536 ∧
      t.sp.toNat = (s.sp.toNat + 2) % 256 ∧ SameRegistersExcept [.sp, .pc] s t ∧ SameMemory s t

/-- PHA completes from every state: the byte at 0x0100 + SP is A, every other byte is unchanged, SP is 1 less mod
256, and no other register and no flag changes. Rule R140. -/
def Obligations.PhaPushesTheAccumulator : Prop :=
  ∀ s : State, ∃ t, exec .pha s = .next t ∧ memRead t (stackAddr s.sp) = s.a ∧ SameMemoryExcept [stackAddr s.sp] s t ∧
      t.sp.toNat = (s.sp.toNat + 255) % 256 ∧ SameRegistersExcept [.sp] s t

/-- PLA completes from every state: SP is 1 more mod 256, A is the byte at 0x0100 + the new SP, Z and N follow it,
and every other flag, register and every byte of memory (the byte read among them) is unchanged. Rule R141. -/
def Obligations.PlaPullsTheAccumulator : Prop :=
  ∀ s : State, ∃ t, exec .pla s = .next t ∧ t.a = memRead s (stackAddr (s.sp + 1)) ∧
      t.sp.toNat = (s.sp.toNat + 1) % 256 ∧ NZFollow t.a t ∧
      SameRegistersExcept [.a, .sp, .p] s t ∧ SameFlagsExcept [.z, .n] s t ∧ SameMemory s t

/-- BRK completes from every state: with PC past the opcode on entry, the high and low byte of PC + 1 and the byte
P OR 0x30 (the old I in it) are at three successive stack slots from 0x0100 + SP down; every other byte is
unchanged; SP is 3 less mod 256; I is set and every other bit of P unchanged; PC is the little-endian word at
0xFFFE; A, X and Y are unchanged. Rule R142. -/
def Obligations.BrkEntersThroughTheVector : Prop :=
  ∀ s : State, ∃ t, exec .brk s = .next t ∧
      (memRead t (stackAddr s.sp)).toNat = (s.pc.toNat + 1) % 65536 / 256 ∧
      (memRead t (stackAddr (s.sp - 1))).toNat = (s.pc.toNat + 1) % 65536 % 256 ∧
      memRead t (stackAddr (s.sp - 2)) = s.p ||| 0x30 ∧
      SameMemoryExcept [stackAddr s.sp, stackAddr (s.sp - 1), stackAddr (s.sp - 2)] s t ∧
      t.sp.toNat = (s.sp.toNat + 253) % 256 ∧ t.flag .i = true ∧ SameFlagsExcept [.i] s t ∧
      t.pc.toNat = (memRead s 0xFFFE).toNat + 256 * (memRead s 0xFFFF).toNat ∧
      SameRegistersExcept [.sp, .pc, .p] s t

/-- For every state whose PC holds a JSR, whatever its target: the JSR step completes, and if the byte at the
target is then an RTS, the RTS step completes with PC = (address of the JSR + 3) mod 65536 and SP, A, X, Y and
P as before the JSR. Rests on 44_control.md (JSR/RTS pairing). -/
def Obligations.RtsAfterJsrReturnsPastTheJsr : Prop :=
  ∀ (s : State) (w : Word) (rest : List Byte), decode (bytesFrom s s.pc.toNat 3) = .ok (.jsr w) rest →
      ∃ t, step s = .next t ∧ t.pc = w ∧
        (opcodeAtPc t = 0x60 → ∃ u, step t = .next u ∧ u.pc.toNat = (s.pc.toNat + 3) % 65536 ∧ SameRegistersExcept [.pc] s u)

/-- From the state BRK leaves (BRK at address a, PC = a + 1 on entry to its executor), PLA then RTS gives PC = (a
+ 3) mod 65536, SP as before the BRK, A = P OR 0x30, and I set; an RTS taken directly instead gives PC = 1 +
(P OR 0x30) + 256 times the low byte of a + 2. Rests on 45_stack_brk.md (leaving a BRK handler), 44_control.md
(RTS). -/
def Obligations.PlaThenRtsLeavesABreakHandlerOneByteFurther : Prop :=
  ∀ s : State, ∃ t, exec .brk s = .next t ∧
      (∃ u v, exec .pla t = .next u ∧ exec .rts u = .next v ∧ v.pc.toNat = (s.pc.toNat + 2) % 65536 ∧ v.sp = s.sp ∧
        v.a = s.p ||| 0x30 ∧ v.flag .i = true) ∧
      ∃ u, exec .rts t = .next u ∧
        u.pc.toNat = ((s.p ||| 0x30).toNat + 256 * ((s.pc.toNat + 1) % 256) + 1) % 65536

/-- If the three bytes from PC on (addresses mod 65536) decode to an instruction i, then i is well-formed and the
step from that state is exec of i on that state with PC advanced by the length of i; the outcome it returns is
Executed. The rules start an executor with PC at the first operand byte; that a meaning here starts with PC
past all the bytes is the model's deduced split (log entry 15), and that every decoded instruction is well-
formed is its choice of type (log entry 21). Rests on 40_step_and_addressing.md sections 1 and 2,
30_encoding.md section 1. -/
def Obligations.StepRunsTheDecodedInstruction : Prop :=
  ∀ (s : State) (i : Instr) (rest : List Byte), decode (bytesFrom s s.pc.toNat 3) = .ok i rest →
      WellFormed i = true ∧ step s = exec i { s with pc := s.pc + BitVec.ofNat 16 i.length } ∧
      (stepReturn s).outcome = .executed

/-- If the byte at PC is unpopulated, the step answers the same state (registers, flags and memory, PC not
advanced) and returns the outcome UnknownOpcode with that byte, code 1, and cycle count 0; and a run of any
number of steps from there has ended at that address and byte. That the stall is a next state is the model's
reading of the spec's decision D11, and the code number is its decision D15 (log entry 8). Rests on
40_step_and_addressing.md section 1, 60_exceptions.md sections 1 and 5, 92_eei_decisions.md D11, D15. -/
def Obligations.AnUnpopulatedByteStallsTheRunForGood : Prop :=
  ∀ (s : State) (fuel : Nat), Stalled s →
      step s = .next s ∧ stepReturn s = ⟨.unknownOpcode (memRead s s.pc.toNat), 0⟩ ∧ (stepReturn s).outcome.code = 1 ∧
      Sys2Proof.core.run fuel s = .next s ∧ RunEndsAt s fuel s.pc (memRead s s.pc.toNat)

/-- There is no fault, no trap on an error and no refused instruction: from every state the step answers a next
state, and it returns outcome code 0 (a populated opcode, at least 2 cycles) or 1 (an unpopulated one, 0
cycles). The stall as a next state is the model's reading of D11 and the code numbers are the spec's decision
D15 (log entry 8); the bound of 2 cycles is that of the spec's decided counts D5 and D16 (log entry 2). Rests
on 60_exceptions.md section 1, 20_memory.md section 3, 70_reset_and_hazards.md section 4, 92_eei_decisions.md
D5, D11, D15, D16. -/
def Obligations.NoStepEverFaults : Prop :=
  ∀ s : State, (∃ t, step s = .next t) ∧
      ((populated (opcodeAtPc s) = true ∧ (stepReturn s).outcome.code = 0 ∧ 2 ≤ (stepReturn s).cycles) ∨
       (populated (opcodeAtPc s) = false ∧ (stepReturn s).outcome.code = 1 ∧ (stepReturn s).cycles = 0))

/-- The memory list of the state after reset has the canonical form (log entry 18). Rests on 20_memory.md section
1, 10_state.md section 4. -/
def Obligations.ResetStateHasCanonicalMemory : Prop :=
  Canonical State.reset

/-- For every state whose memory list has the canonical form (addresses strictly rising and below 65536, no entry
equal to what an unlisted byte reads as) and every instruction at PC, the next state's memory list has it too
(log entry 18). Rests on 20_memory.md section 1, 40_step_and_addressing.md section 1. -/
def Obligations.EveryStepKeepsTheMemoryCanonical : Prop :=
  ∀ s t : State, Canonical s → step s = .next t → Canonical t

/-- Reset, Step, register writes, push, pop, byte and word writes, LoadProgram, Clear and the reading transactions
all leave a memory list in canonical form when they start from one (log entry 18). Rests on 60_exceptions.md
section 5, 20_memory.md section 4. -/
def Obligations.EveryHostTransactionKeepsTheMemoryCanonical : Prop :=
  ∀ (s t : State) (x : Transaction) (r : Reply), Canonical s → transact x s = .next (t, r) → Canonical t

/-- If a step leaves SP different, then the opcode at PC is that of JSR, RTS, PHA, PLA or BRK. Rests on
10_state.md section 1, 40_step_and_addressing.md section 4. -/
def Obligations.OnlyStackInstructionsMoveTheStackPointer : Prop :=
  ∀ s t : State, step s = .next t → t.sp ≠ s.sp → MnemonicAtPc [.jsr, .rts, .pha, .pla, .brk] s

/-- If a step leaves the byte at some address different, then the opcode at PC is STA, STX, STY, JSR, PHA or BRK,
and for JSR, PHA and BRK the address is in 0x0100 to 0x01FF. Rests on 20_memory.md sections 1 and 3,
40_step_and_addressing.md section 4. -/
def Obligations.OnlyStoresAndPushesWriteMemory : Prop :=
  ∀ (s t : State) (k : Nat), step s = .next t → memRead t k ≠ memRead s k →
      MnemonicAtPc [.sta, .stx, .sty] s ∨
      (MnemonicAtPc [.jsr, .pha, .brk] s ∧ 0x0100 ≤ k % 65536 ∧ k % 65536 ≤ 0x01FF)

/-- If a step changes C or V the opcode is ADC; if it changes Z or N it is one of LDA LDX LDY ADC AND TAX TAY TXA
TYA INX INY DEX DEY PLA; if it changes I it is BRK and I becomes 1; no step changes D, B or bit 5. Rests on
10_state.md sections 2 and 5. -/
def Obligations.FlagsChangeOnlyWhereTheSummaryTableSays : Prop :=
  ∀ s t : State, step s = .next t →
      (t.flag .c ≠ s.flag .c → MnemonicAtPc [.adc] s) ∧ (t.flag .v ≠ s.flag .v → MnemonicAtPc [.adc] s) ∧
      (t.flag .z ≠ s.flag .z ∨ t.flag .n ≠ s.flag .n →
        MnemonicAtPc [.lda, .ldx, .ldy, .adc, .and, .tax, .tay, .txa, .tya, .inx, .iny, .dex, .dey, .pla] s) ∧
      (t.flag .i ≠ s.flag .i → MnemonicAtPc [.brk] s ∧ t.flag .i = true) ∧
      t.flag .d = s.flag .d ∧ t.flag .b = s.flag .b ∧ t.flag .bit5 = s.flag .bit5

/-- If a step changes A the opcode is LDA, ADC, AND, TXA, TYA or PLA; if X, it is LDX, TAX, INX or DEX; if Y, it
is LDY, TAY, INY or DEY. Rests on 10_state.md section 1. -/
def Obligations.IndexAndAccumulatorWritersAreTheListedOnes : Prop :=
  ∀ s t : State, step s = .next t →
      (t.a ≠ s.a → MnemonicAtPc [.lda, .adc, .and, .txa, .tya, .pla] s) ∧
      (t.x ≠ s.x → MnemonicAtPc [.ldx, .tax, .inx, .dex] s) ∧
      (t.y ≠ s.y → MnemonicAtPc [.ldy, .tay, .iny, .dey] s)

/-- If the bytes at PC decode to an instruction other than JMP, JSR, RTS and BRK, the step leaves PC = (PC + the
instruction's length) mod 65536. Rests on 44_control.md introduction, 10_state.md section 1. -/
def Obligations.SequentialAdvanceUnlessAControlTransfer : Prop :=
  ∀ (s : State) (i : Instr) (rest : List Byte), decode (bytesFrom s s.pc.toNat 3) = .ok i rest →
      i.mnemonic ∉ [.jmp, .jsr, .rts, .brk] →
      ∃ t, step s = .next t ∧ t.pc.toNat = (s.pc.toNat + (encode i).length) % 65536

/-- For every state and each of I, D, B and bit 5. Every instruction but BRK: executing with that bit set either
way gives results that differ in that bit alone. BRK: A, X, Y, SP and PC are the same, I is 1 in both results,
every bit but the chosen one is the same, and every byte of memory is the same but the pushed copy, which is P
OR 0x30 of the P each started with. That I masks nothing is the spec's decision D22 (log entry 14). Rests on
10_state.md section 2, 45_stack_brk.md (BRK), 60_exceptions.md section 2, 92_eei_decisions.md D22. -/
def Obligations.UnusedStatusBitsInfluenceOnlyThemselvesAndTheCopyBrkPushes : Prop :=
  ∀ (s : State) (f : Machine.Flag) (on : Bool), f ∈ [Machine.Flag.i, .d, .b, .bit5] →
      (∀ i : Instr, i ≠ .brk → ∃ t, exec i s = .next t ∧ exec i (s.setFlag f on) = .next (t.setFlag f on)) ∧
      ∃ t u, exec .brk s = .next t ∧ exec .brk (s.setFlag f on) = .next u ∧ SameRegistersExcept [.p] t u ∧
        SameFlagsExcept [f] t u ∧ t.flag .i = true ∧ u.flag .i = true ∧ SameMemoryExcept [stackAddr (s.sp - 2)] t u ∧
        memRead t (stackAddr (s.sp - 2)) = s.p ||| 0x30 ∧ memRead u (stackAddr (s.sp - 2)) = setFlag f on s.p ||| 0x30

/-- For every instruction and every two states equal but for P and with the same C: both complete, with the same
A, X, Y, SP and PC and the same C, and with the same memory; for BRK, the same memory but the byte at 0x0100 +
(SP - 2 mod 256), the pushed copy of P. Rests on 10_state.md section 2, 45_stack_brk.md (BRK). -/
def Obligations.OfTheStatusOnlyCarryInfluencesTheRestButForTheCopyBrkPushes : Prop :=
  ∀ (i : Instr) (s : State) (p : Byte), getFlag .c p = s.flag .c →
      ∃ t u, exec i s = .next t ∧ exec i { s with p := p } = .next u ∧ SameRegistersExcept [.p] t u ∧ u.flag .c = t.flag .c ∧
        (i ≠ .brk → u.mem = t.mem) ∧ (i = .brk → SameMemoryExcept [stackAddr (s.sp - 2)] t u)

/-- For every store form and PHA, from every state: the instruction completes, and of the three bytes from PC on
(addresses mod 65536) each one at the address stored to is the byte stored and every other is as before; and
if these three decode to an instruction, the next step runs that instruction (with PC past its bytes, log
entry 15). The address stored to is the effective address of the mode, for PHA 0x0100 + SP. Rests on
20_memory.md section 5, 70_reset_and_hazards.md section 3. -/
def Obligations.AStoreIsSeenByTheNextFetch : Prop :=
  ∀ (s : State) (b : Byte) (w : Word),
    let Seen : Instr → Nat → Byte → Prop := fun i a v =>
      let bs := [0, 1, 2].map fun j => if (s.pc.toNat + j) % 65536 = a % 65536 then v else memRead s (s.pc.toNat + j)
      ∃ t, exec i s = .next t ∧ bytesFrom t s.pc.toNat 3 = bs ∧
        ∀ j rest, decode bs = .ok j rest → step t = exec j { t with pc := s.pc + BitVec.ofNat 16 j.length }
    Seen (.staZp b) ((Address.zp b).ea s) s.a ∧
    Seen (.staZpx b) ((Address.zpx b).ea s) s.a ∧
    Seen (.staAbs w) ((Address.abs w).ea s) s.a ∧
    Seen (.staAbx w) ((Address.abx w).ea s) s.a ∧
    Seen (.staAby w) ((Address.aby w).ea s) s.a ∧
    Seen (.stxZp b) ((Address.zp b).ea s) s.x ∧
    Seen (.stxZpy b) ((Address.zpy b).ea s) s.x ∧
    Seen (.stxAbs w) ((Address.abs w).ea s) s.x ∧
    Seen (.styZp b) ((Address.zp b).ea s) s.y ∧
    Seen (.styZpx b) ((Address.zpx b).ea s) s.y ∧
    Seen (.styAbs w) ((Address.abs w).ea s) s.y ∧
    Seen .pha (stackAddr s.sp) s.a

/-- After the Reset transaction A, X and Y are 0x00, SP is 0xFF, P is 0x24 (I and bit 5 set), every byte of 0x0100
to 0x01FF is 0x00, every other byte is unchanged, and PC is unchanged or 0x0000 as RESET_PC_POLICY says; the
host gets nothing back. Rule R180. -/
def Obligations.ResetTransactionSetsRegistersAndStackPage : Prop :=
  ∀ s : State, ∃ t, transact .reset s = .next (t, .nothing) ∧ t.a = 0x00 ∧ t.x = 0x00 ∧ t.y = 0x00 ∧ t.sp = 0xFF ∧ t.p = 0x24 ∧
      t.pc = (match Config.resetPcPolicy with
        | .unchanged => s.pc
        | .zero => 0x0000) ∧
      ∀ k, memRead t k = if 0x0100 ≤ k % 65536 ∧ k % 65536 ≤ 0x01FF then 0x00 else memRead s k

/-- For every state with canonical memory, the Reset transaction applied twice gives exactly the state that
applying it once gives. Rests on 70_reset_and_hazards.md section 1. -/
def Obligations.ResetTwiceIsResetOnce : Prop :=
  ∀ s : State, Canonical s → resetTransaction (resetTransaction s) = resetTransaction s

/-- From any register contents with PC = PC_POWERON and every byte of memory 0x00, Reset gives State.reset: A = X
= Y = 0x00, SP = 0xFF, P = 0x24, PC = 0x0000, every byte 0x00. From every state, Reset leaves PC as it was. PC
and memory at power-on are the spec's decisions D7 and D9 (log entries 4 and 6), that Reset keeps PC is its
decision D8 (log entry 5), and that State.reset is the power-on state is deduced (log entry 17). Rests on
10_state.md section 4, 70_reset_and_hazards.md section 1, 92_eei_decisions.md D7, D8, D9. -/
def Obligations.PowerOnThenResetIsTheResetStateAndResetKeepsPc : Prop :=
  (∀ a x y sp p : Byte, resetTransaction ⟨a, x, y, sp, Config.pcPowerOn, p, []⟩ = State.reset) ∧
    (∀ s : State, (resetTransaction s).pc = s.pc) ∧
    State.reset.a = 0x00 ∧ State.reset.x = 0x00 ∧ State.reset.y = 0x00 ∧ State.reset.sp = 0xFF ∧ State.reset.p = 0x24 ∧
    State.reset.pc = 0x0000 ∧ ∀ k, memRead State.reset k = 0x00

/-- For an origin in 0x0000 to 0xFFFF, LoadProgram completes: byte j of the buffer is at origin + j where that is
at most 0xFFFF, every other byte (address 0x0000 after an overrun among them) and every register is unchanged.
A larger origin is refused by name (the spec's decision D19, log entry 10). Rests on 20_memory.md section 4,
92_eei_decisions.md D19. -/
def Obligations.LoadProgramCopiesUpToTheTopAndDropsTheRest : Prop :=
  ∀ (s : State) (bs : List Byte) (origin : Nat),
      (origin ≤ 0xFFFF → ∃ t, transact (.loadProgram bs origin) s = .next (t, .nothing) ∧ SameRegistersExcept [] s t ∧
        (∀ j v, bs[j]? = some v → origin + j ≤ 0xFFFF → memRead t (origin + j) = v) ∧
        ∀ k, k ≤ 0xFFFF → (k < origin ∨ origin + bs.length ≤ k) → memRead t k = memRead s k) ∧
      (0xFFFF < origin → transact (.loadProgram bs origin) s = .refused (.loadOriginOutOfRange origin))

/-- Dump(start, length) answers the same state and the list of the bytes at start, start + 1, ..., up to min(start
+ length, 0x10000); it is empty when start > 0xFFFF or length = 0. Rests on 20_memory.md section 4,
92_eei_decisions.md D19. -/
def Obligations.DumpIsTheClippedSlice : Prop :=
  ∀ (s : State) (start length : Nat), ∃ l, transact (.dump start length) s = .next (s, .bytes l) ∧
      l.length = min (start + length) 0x10000 - start ∧
      (∀ j, j < l.length → l[j]? = some (memRead s (start + j))) ∧ (0xFFFF < start ∨ length = 0 → l = [])

/-- The Clear transaction completes from every state with every byte of the store 0x00 and every register, P among
them, unchanged. Rule R53. -/
def Obligations.ClearZeroesAllMemoryAndNoRegister : Prop :=
  ∀ s : State, ∃ t, transact .clear s = .next (t, .nothing) ∧ (∀ k, memRead t k = 0x00) ∧ SameRegistersExcept [] s t

/-- The host write of v to A, X, Y, SP or P stores v mod 256, to PC v mod 65536; a host read then gives that
value; every other register and all of memory are unchanged. That P takes all 8 bits is the spec's decision
D10 (log entry 7). Rests on 60_exceptions.md section 5, 92_eei_decisions.md D10. -/
def Obligations.HostRegisterWritesKeepTheWidth : Prop :=
  ∀ (s : State) (r : Reg) (v : Nat), ∃ t, transact (.writeReg r v) s = .next (t, .nothing) ∧
      transact (.readReg r) t = .next (t, .value (if r = .pc then v % 65536 else v % 256)) ∧
      SameRegistersExcept [r] s t ∧ t.mem = s.mem

/-- If the byte at the address is unpopulated, the disassembler returns exactly the address, that byte alone,
mnemonic ???, an empty operand and the comment Unknown opcode. Rule R151. -/
def Obligations.DisassemblingAnUnpopulatedByteGivesTheSentinel : Prop :=
  ∀ (s : State) (a : Nat), populated (memRead s a) = false →
      disassemble s a = { address := a, bytes := [memRead s a], mnemonic := "???", operand := "", comment := "Unknown opcode" }

/-- If the three bytes from an address on decode to an instruction, its disassembly has that address, exactly the
instruction's bytes, its mnemonic in capitals, and as operand: # $ and two digits for IMM, $ and two digits
for the zero-page modes, $ and four digits, high digit first, for the absolute modes, with ,X or ,Y for the
indexed ones, and nothing for IMP. The digits are those of the operand in base 16, leading zeros kept, from 0
to 9 and A to F. The comment is the open parameter. The prefix and the digits' case are decision D12 (log
entry 11). Rests on 46_disassembler.md, 30_encoding.md section 4, 92_eei_decisions.md D12. -/
def Obligations.DisassemblyShowsTheDecodedInstruction : Prop :=
  ∀ (s : State) (a : Nat) (i : Instr) (rest : List Byte), decode (bytesFrom s a 3) = .ok i rest →
      let digit : Nat → Char := fun n =>
        ['0', '1', '2', '3', '4', '5', '6', '7', '8', '9', 'A', 'B', 'C', 'D', 'E', 'F'].getD (n % 16) ' '
      let two := String.ofList [digit (i.operand / 16), digit i.operand]
      let four := String.ofList [digit (i.operand / 4096), digit (i.operand / 256), digit (i.operand / 16), digit i.operand]
      disassemble s a =
        { address := a
          bytes := encode i
          mnemonic :=
            match i.mnemonic with
            | .lda => "LDA" | .ldx => "LDX" | .ldy => "LDY" | .sta => "STA" | .stx => "STX" | .sty => "STY"
            | .adc => "ADC" | .and => "AND" | .tax => "TAX" | .tay => "TAY" | .txa => "TXA" | .tya => "TYA"
            | .inx => "INX" | .iny => "INY" | .dex => "DEX" | .dey => "DEY" | .jmp => "JMP" | .jsr => "JSR"
            | .rts => "RTS" | .pha => "PHA" | .pla => "PLA" | .brk => "BRK"
          operand :=
            match i.mode with
            | .imm => "#$" ++ two
            | .zp => "$" ++ two
            | .zpx => "$" ++ two ++ ",X"
            | .zpy => "$" ++ two ++ ",Y"
            | .abs => "$" ++ four
            | .abx => "$" ++ four ++ ",X"
            | .aby => "$" ++ four ++ ",Y"
            | .imp => ""
          comment := Config.disasmComment i.mnemonic i.mode }

/-- For an address in 0x0000 to 0xFFFF the Disassemble transaction answers the state it started from, and its
record is the same in every state with the same memory; a larger address is refused by name (decision D12, log
entry 11). Rests on 46_disassembler.md, 92_eei_decisions.md D12. -/
def Obligations.DisassemblyReadsMemoryOnlyAndChangesNothing : Prop :=
  ∀ (s : State) (a : Nat),
      (a ≤ 0xFFFF → transact (.disassemble a) s = .next (s, .record (disassemble s a))) ∧
      (∀ t : State, t.mem = s.mem → disassemble t a = disassemble s a) ∧
      (0xFFFF < a → transact (.disassemble a) s = .refused (.disassembleAddressOutOfRange a))

/-- For every number n of steps and every two states equal but for P and with the same C: if no BRK stands at PC
in the first n states of the run from the one, then both runs of n steps answer next states with the same A,
X, Y, SP and PC, the same memory and the same C. Rests on 10_state.md section 2, 40_step_and_addressing.md
section 1. -/
def Obligations.RunsThatDifferOnlyInPStayTogetherUntilABreak : Prop :=
  ∀ (n : Nat) (s : State) (p : Byte), getFlag .c p = s.flag .c →
      (∀ k, k < n → ∀ v, Sys2Proof.core.run k s = .next v → ¬ MnemonicAtPc [.brk] v) →
      ∃ t u, Sys2Proof.core.run n s = .next t ∧ Sys2Proof.core.run n { s with p := p } = .next u ∧
        SameRegistersExcept [.p] t u ∧ State.flag u .c = State.flag t .c ∧ State.mem u = State.mem t
end

