-- ==== Sys2Proof/Laws/Flags.lean ====
section
/-! SUPPORT. The laws of the status register: a flag write changes one bit, and what each flag computation
leaves in each flag. -/

namespace Sys2Proof.Machine

/-- The bit column of 10_state.md R25. -/
def Flag.bit : Flag → Nat
  | .c => 0
  | .z => 1
  | .i => 2
  | .d => 3
  | .b => 4
  | .bit5 => 5
  | .v => 6
  | .n => 7

theorem Flag.bit_lt (f : Flag) : f.bit < 8 := by cases f <;> decide

theorem Flag.bit_inj {f g : Flag} : f.bit = g.bit ↔ f = g := by cases f <;> cases g <;> decide

/-- Each mask is the power of two of its bit (10_state.md R25). -/
theorem Flag.mask_eq (f : Flag) : f.mask = BitVec.twoPow 8 f.bit := by cases f <;> decide

/-- A flag is the bit of P that the layout gives it. -/
theorem getFlag_eq_bit (f : Flag) (p : Byte) : getFlag f p = p.getLsbD f.bit := by
  have h : ∀ i : Fin 8, ∀ p : Byte, ((p &&& BitVec.twoPow 8 i) != 0) = p.getLsbD i := by decide +kernel
  unfold getFlag
  rw [Flag.mask_eq]
  exact h ⟨f.bit, f.bit_lt⟩ p

/-- A flag write changes that flag only (10_state.md R26). -/
@[simp] theorem getFlag_setFlag (f g : Flag) (on : Bool) (p : Byte) :
    getFlag g (setFlag f on p) = if g = f then on else getFlag g p := by
  simp only [getFlag_eq_bit, ← Flag.bit_inj (f := g)]
  have hg := g.bit_lt
  by_cases h : g.bit = f.bit
  · cases on <;> simp [setFlag, Flag.mask_eq, ← h, hg]
  · cases on <;> simp [setFlag, Flag.mask_eq, h, hg]

/-- The eight flags are the whole status register (10_state.md R25). -/
theorem status_ext {p q : Byte} (h : ∀ f, getFlag f p = getFlag f q) : p = q := by
  simp only [getFlag_eq_bit] at h
  apply BitVec.eq_of_getLsbD_eq
  intro i hi
  interval_cases i
  · exact h .c
  · exact h .z
  · exact h .i
  · exact h .d
  · exact h .b
  · exact h .bit5
  · exact h .v
  · exact h .n

/-- Bit 7 of a byte says that it is at least 0x80. -/
theorem bit7_eq (v : Byte) : v.getLsbD 7 = decide (128 ≤ v.toNat) := by
  revert v; decide

/-- The flags after `UpdateNZ` (40_step_and_addressing.md R93). -/
@[simp] theorem getFlag_nzStatus (f : Flag) (v p : Byte) :
    getFlag f (nzStatus v p) =
      if f = .n then v.getLsbD 7 else if f = .z then v == 0 else getFlag f p := by
  simp [nzStatus]

/-- The flags after ADC (42_arith_logic.md R110), under either value of the parameter. -/
theorem getFlag_adcStatus (f : Flag) (target : Config.AdcBit6Target) (sum : Nat) (p : Byte) :
    getFlag f (adcStatus target sum p) =
      if f = .n then (BitVec.ofNat 8 sum).getLsbD 7 else if f = .z then BitVec.ofNat 8 sum == 0
      else if f = .c then decide (sum > 255)
      else if f = .v ∧ target = .v then sum.testBit 6 else getFlag f p := by
  cases target <;> cases f <;> simp [adcStatus]

/-- The flags of the copy BRK pushes (45_stack_brk.md R142). -/
theorem getFlag_brkStatusCopy (f : Flag) (p : Byte) :
    getFlag f (brkStatusCopy p) = (f == .b || f == .bit5 || getFlag f p) := by
  have h : brkStatusCopy p = setFlag .b true (setFlag .bit5 true p) := by
    simp only [brkStatusCopy, setFlag, if_true, BitVec.or_assoc]
    rfl
  rw [h, getFlag_setFlag, getFlag_setFlag]
  cases f <;> rfl

end Sys2Proof.Machine
end

