-- ==== Sys2Proof/Laws/Memory.lean ====
section
/-! SUPPORT. The laws of the memory list: read after write, the canonical form kept, and canonical memories
that read alike are equal. -/

namespace Sys2Proof.Machine

theorem Memory.get_erase_self (m : Memory) (k : Nat) :
    Memory.get (Memory.erase m k) k = Config.unlistedByte := by
  induction m with
  | nil => rfl
  | cons c m ih =>
    by_cases h : c.1 = k
    · simpa [Memory.erase, h] using ih
    · simpa [Memory.erase, Memory.get, h] using ih

theorem Memory.get_erase_ne {m : Memory} {k j : Nat} (hj : j ≠ k) :
    Memory.get (Memory.erase m k) j = Memory.get m j := by
  induction m with
  | nil => rfl
  | cons c m ih =>
    by_cases h : c.1 = k
    · have hne : c.1 ≠ j := fun e => hj (e.symm.trans h)
      simpa [Memory.erase, Memory.get, h, hne, Ne.symm hj] using ih
    · by_cases hc : c.1 = j
      · simp [Memory.erase, Memory.get, hc, hj]
      · simpa [Memory.erase, Memory.get, h, hc] using ih

theorem Memory.get_insert_ne {m : Memory} {k j : Nat} (v : Byte) (hj : j ≠ k) :
    Memory.get (Memory.insert m k v) j = Memory.get m j := by
  induction m with
  | nil => simp [Memory.insert, Memory.get, Ne.symm hj]
  | cons c m ih =>
    by_cases h : k < c.1
    · simp [Memory.insert, Memory.get, h, Ne.symm hj]
    · simp [Memory.insert, Memory.get, h, ih]

/-- After an insertion the key reads as inserted, if it was not listed. -/
theorem Memory.get_insert_self {m : Memory} {k : Nat} (v : Byte) (hm : ∀ c ∈ m, c.1 ≠ k) :
    Memory.get (Memory.insert m k v) k = v := by
  induction m with
  | nil => simp [Memory.insert, Memory.get]
  | cons c m ih =>
    by_cases h : k < c.1
    · simp [Memory.insert, Memory.get, h]
    · have hc : c.1 ≠ k := hm c (by simp)
      simp [Memory.insert, Memory.get, h, hc, ih fun d hd => hm d (by simp [hd])]

theorem Memory.ne_of_mem_erase {m : Memory} {k : Nat} : ∀ c ∈ Memory.erase m k, c.1 ≠ k := by
  intro c hc
  simpa using (List.mem_filter.mp hc).2

/-- Read after write, for every memory list. -/
theorem Memory.get_set (m : Memory) (k j : Nat) (v : Byte) :
    Memory.get (Memory.set m k v) j = if j = k then v else Memory.get m j := by
  by_cases hj : j = k
  · subst hj
    by_cases hv : v = Config.unlistedByte
    · simp [Memory.set, hv, Memory.get_erase_self]
    · simp [Memory.set, hv, Memory.get_insert_self v Memory.ne_of_mem_erase]
  · by_cases hv : v = Config.unlistedByte
    · simp [Memory.set, hv, hj, Memory.get_erase_ne hj]
    · simp [Memory.set, hv, hj, Memory.get_insert_ne v hj, Memory.get_erase_ne hj]

theorem Memory.wfFrom_mono {m : Memory} {lo lo' : Nat} (h : lo' ≤ lo) (hm : Memory.wfFrom lo m = true) :
    Memory.wfFrom lo' m = true := by
  cases m with
  | nil => rfl
  | cons c m =>
    simp only [Memory.wfFrom, Bool.and_eq_true, decide_eq_true_eq] at hm ⊢
    exact ⟨⟨⟨h.trans hm.1.1.1, hm.1.1.2⟩, hm.1.2⟩, hm.2⟩

theorem Memory.wfFrom_erase {m : Memory} {lo : Nat} (k : Nat) (hm : Memory.wfFrom lo m = true) :
    Memory.wfFrom lo (Memory.erase m k) = true := by
  induction m generalizing lo with
  | nil => rfl
  | cons c m ih =>
    simp only [Memory.wfFrom, Bool.and_eq_true, decide_eq_true_eq] at hm
    have hrest := ih hm.2
    by_cases h : c.1 = k
    · have : Memory.erase (c :: m) k = Memory.erase m k := by simp [Memory.erase, h]
      rw [this]
      exact Memory.wfFrom_mono (by omega) hrest
    · have : Memory.erase (c :: m) k = c :: Memory.erase m k := by simp [Memory.erase, h]
      rw [this]
      simp only [Memory.wfFrom, Bool.and_eq_true, decide_eq_true_eq]
      exact ⟨hm.1, hrest⟩

theorem Memory.wfFrom_insert {m : Memory} {lo k : Nat} {v : Byte} (hlo : lo ≤ k) (hk : k < 0x10000)
    (hv : v ≠ Config.unlistedByte) (hne : ∀ c ∈ m, c.1 ≠ k) (hm : Memory.wfFrom lo m = true) :
    Memory.wfFrom lo (Memory.insert m k v) = true := by
  induction m generalizing lo with
  | nil => simp [Memory.insert, Memory.wfFrom, hlo, hk, hv]
  | cons c m ih =>
    simp only [Memory.wfFrom, Bool.and_eq_true, decide_eq_true_eq] at hm
    by_cases h : k < c.1
    · simp only [Memory.insert, h, if_true, Memory.wfFrom, Bool.and_eq_true, decide_eq_true_eq]
      exact ⟨⟨⟨hlo, hk⟩, bne_iff_ne.mpr hv⟩, ⟨⟨h, hm.1.1.2⟩, hm.1.2⟩, hm.2⟩
    · have hc : c.1 ≠ k := hne c (by simp)
      simp only [Memory.insert, h, if_false, Memory.wfFrom, Bool.and_eq_true, decide_eq_true_eq]
      exact ⟨hm.1, ih (by omega) (fun d hd => hne d (by simp [hd])) hm.2⟩

/-- A write keeps the canonical form. -/
theorem Memory.wf_set {m : Memory} {k : Nat} (v : Byte) (hk : k < 0x10000) (hm : Memory.wf m = true) :
    Memory.wf (Memory.set m k v) = true := by
  unfold Memory.set
  split
  · exact Memory.wfFrom_erase k hm
  · exact Memory.wfFrom_insert (Nat.zero_le k) hk ‹_› Memory.ne_of_mem_erase (Memory.wfFrom_erase k hm)

theorem Memory.get_of_lt {m : Memory} {lo k : Nat} (hk : k < lo) (hm : Memory.wfFrom lo m = true) :
    Memory.get m k = Config.unlistedByte := by
  induction m generalizing lo with
  | nil => rfl
  | cons c m ih =>
    simp only [Memory.wfFrom, Bool.and_eq_true, decide_eq_true_eq] at hm
    have hc : c.1 ≠ k := by omega
    simpa [Memory.get, hc] using ih (by omega) hm.2

theorem Memory.ext_from {m n : Memory} {lo : Nat} (hm : Memory.wfFrom lo m = true)
    (hn : Memory.wfFrom lo n = true) (h : ∀ k, Memory.get m k = Memory.get n k) : m = n := by
  induction m generalizing lo n with
  | nil =>
    cases n with
    | nil => rfl
    | cons d n =>
      simp only [Memory.wfFrom, Bool.and_eq_true, bne_iff_ne] at hn
      have := h d.1
      simp only [Memory.get, if_true] at this
      exact absurd this.symm hn.1.2
  | cons c m ih =>
    simp only [Memory.wfFrom, Bool.and_eq_true, decide_eq_true_eq, bne_iff_ne] at hm
    cases n with
    | nil =>
      have := h c.1
      simp only [Memory.get, if_true] at this
      exact absurd this hm.1.2
    | cons d n =>
      simp only [Memory.wfFrom, Bool.and_eq_true, decide_eq_true_eq, bne_iff_ne] at hn
      have hkey : c.1 = d.1 := by
        rcases Nat.lt_trichotomy c.1 d.1 with hlt | heq | hgt
        · have h1 := h c.1
          have h2 : Memory.get n c.1 = Config.unlistedByte := Memory.get_of_lt (by omega) hn.2
          have h3 : d.1 ≠ c.1 := by omega
          simp only [Memory.get, if_true, h3, if_false, h2] at h1
          exact absurd h1 hm.1.2
        · exact heq
        · have h1 := h d.1
          have h2 : Memory.get m d.1 = Config.unlistedByte := Memory.get_of_lt (by omega) hm.2
          have h3 : c.1 ≠ d.1 := by omega
          simp only [Memory.get, if_true, h3, if_false, h2] at h1
          exact absurd h1.symm hn.1.2
      have hval : c.2 = d.2 := by simpa [Memory.get, hkey] using h c.1
      have hcd : c = d := Prod.ext hkey hval
      subst hcd
      refine congrArg (c :: ·) (ih hm.2 hn.2 fun k => ?_)
      by_cases hk : c.1 = k
      · subst hk
        rw [Memory.get_of_lt (Nat.lt_succ_self _) hm.2, Memory.get_of_lt (Nat.lt_succ_self _) hn.2]
      · simpa [Memory.get, hk] using h k

/-- Canonical memories that read alike at every key are the same list. -/
theorem Memory.ext {m n : Memory} (hm : Memory.wf m = true) (hn : Memory.wf n = true)
    (h : ∀ k, Memory.get m k = Memory.get n k) : m = n := Memory.ext_from hm hn h

end Sys2Proof.Machine
end

