-- ==== Sys2Proof/Laws/State.lean ====
section
/-! SUPPORT. Each register write changes its own field and no other: one lemma per field per update. -/

namespace Sys2Proof.Machine

variable (s : State)

@[simp] theorem setA_a (v : Byte) : (s.setA v).a = v := rfl
@[simp] theorem setA_x (v : Byte) : (s.setA v).x = s.x := rfl
@[simp] theorem setA_y (v : Byte) : (s.setA v).y = s.y := rfl
@[simp] theorem setA_sp (v : Byte) : (s.setA v).sp = s.sp := rfl
@[simp] theorem setA_pc (v : Byte) : (s.setA v).pc = s.pc := rfl
@[simp] theorem setA_p (v : Byte) : (s.setA v).p = s.p := rfl
@[simp] theorem setA_mem (v : Byte) : (s.setA v).mem = s.mem := rfl

@[simp] theorem setX_a (v : Byte) : (s.setX v).a = s.a := rfl
@[simp] theorem setX_x (v : Byte) : (s.setX v).x = v := rfl
@[simp] theorem setX_y (v : Byte) : (s.setX v).y = s.y := rfl
@[simp] theorem setX_sp (v : Byte) : (s.setX v).sp = s.sp := rfl
@[simp] theorem setX_pc (v : Byte) : (s.setX v).pc = s.pc := rfl
@[simp] theorem setX_p (v : Byte) : (s.setX v).p = s.p := rfl
@[simp] theorem setX_mem (v : Byte) : (s.setX v).mem = s.mem := rfl

@[simp] theorem setY_a (v : Byte) : (s.setY v).a = s.a := rfl
@[simp] theorem setY_x (v : Byte) : (s.setY v).x = s.x := rfl
@[simp] theorem setY_y (v : Byte) : (s.setY v).y = v := rfl
@[simp] theorem setY_sp (v : Byte) : (s.setY v).sp = s.sp := rfl
@[simp] theorem setY_pc (v : Byte) : (s.setY v).pc = s.pc := rfl
@[simp] theorem setY_p (v : Byte) : (s.setY v).p = s.p := rfl
@[simp] theorem setY_mem (v : Byte) : (s.setY v).mem = s.mem := rfl

@[simp] theorem setSp_a (v : Byte) : (s.setSp v).a = s.a := rfl
@[simp] theorem setSp_x (v : Byte) : (s.setSp v).x = s.x := rfl
@[simp] theorem setSp_y (v : Byte) : (s.setSp v).y = s.y := rfl
@[simp] theorem setSp_sp (v : Byte) : (s.setSp v).sp = v := rfl
@[simp] theorem setSp_pc (v : Byte) : (s.setSp v).pc = s.pc := rfl
@[simp] theorem setSp_p (v : Byte) : (s.setSp v).p = s.p := rfl
@[simp] theorem setSp_mem (v : Byte) : (s.setSp v).mem = s.mem := rfl

@[simp] theorem setPc_a (v : Word) : (s.setPc v).a = s.a := rfl
@[simp] theorem setPc_x (v : Word) : (s.setPc v).x = s.x := rfl
@[simp] theorem setPc_y (v : Word) : (s.setPc v).y = s.y := rfl
@[simp] theorem setPc_sp (v : Word) : (s.setPc v).sp = s.sp := rfl
@[simp] theorem setPc_pc (v : Word) : (s.setPc v).pc = v := rfl
@[simp] theorem setPc_p (v : Word) : (s.setPc v).p = s.p := rfl
@[simp] theorem setPc_mem (v : Word) : (s.setPc v).mem = s.mem := rfl

@[simp] theorem setP_a (v : Byte) : (s.setP v).a = s.a := rfl
@[simp] theorem setP_x (v : Byte) : (s.setP v).x = s.x := rfl
@[simp] theorem setP_y (v : Byte) : (s.setP v).y = s.y := rfl
@[simp] theorem setP_sp (v : Byte) : (s.setP v).sp = s.sp := rfl
@[simp] theorem setP_pc (v : Byte) : (s.setP v).pc = s.pc := rfl
@[simp] theorem setP_p (v : Byte) : (s.setP v).p = v := rfl
@[simp] theorem setP_mem (v : Byte) : (s.setP v).mem = s.mem := rfl

@[simp] theorem setMem_a (v : Memory) : (s.setMem v).a = s.a := rfl
@[simp] theorem setMem_x (v : Memory) : (s.setMem v).x = s.x := rfl
@[simp] theorem setMem_y (v : Memory) : (s.setMem v).y = s.y := rfl
@[simp] theorem setMem_sp (v : Memory) : (s.setMem v).sp = s.sp := rfl
@[simp] theorem setMem_pc (v : Memory) : (s.setMem v).pc = s.pc := rfl
@[simp] theorem setMem_p (v : Memory) : (s.setMem v).p = s.p := rfl
@[simp] theorem setMem_mem (v : Memory) : (s.setMem v).mem = v := rfl

/-- A flag reads the status register only. -/
@[simp] theorem flag_setP (v : Byte) (f : Flag) : (s.setP v).flag f = getFlag f v := rfl
@[simp] theorem flag_setA (v : Byte) (f : Flag) : (s.setA v).flag f = s.flag f := rfl
@[simp] theorem flag_setX (v : Byte) (f : Flag) : (s.setX v).flag f = s.flag f := rfl
@[simp] theorem flag_setY (v : Byte) (f : Flag) : (s.setY v).flag f = s.flag f := rfl
@[simp] theorem flag_setSp (v : Byte) (f : Flag) : (s.setSp v).flag f = s.flag f := rfl
@[simp] theorem flag_setPc (v : Word) (f : Flag) : (s.setPc v).flag f = s.flag f := rfl
@[simp] theorem flag_setMem (v : Memory) (f : Flag) : (s.setMem v).flag f = s.flag f := rfl

@[simp] theorem setFlag_a (f : Flag) (on : Bool) : (s.setFlag f on).a = s.a := rfl
@[simp] theorem setFlag_x (f : Flag) (on : Bool) : (s.setFlag f on).x = s.x := rfl
@[simp] theorem setFlag_y (f : Flag) (on : Bool) : (s.setFlag f on).y = s.y := rfl
@[simp] theorem setFlag_sp (f : Flag) (on : Bool) : (s.setFlag f on).sp = s.sp := rfl
@[simp] theorem setFlag_pc (f : Flag) (on : Bool) : (s.setFlag f on).pc = s.pc := rfl
@[simp] theorem setFlag_p (f : Flag) (on : Bool) : (s.setFlag f on).p = Machine.setFlag f on s.p := rfl
@[simp] theorem setFlag_mem (f : Flag) (on : Bool) : (s.setFlag f on).mem = s.mem := rfl

end Sys2Proof.Machine
end

