-- ==== Sys2Proof/Laws/Ops.lean ====
section
/-! SUPPORT. What each shared operation does: which bytes and registers it changes, and that it keeps the
memory canonical. Later proofs cite these and do not unfold the operations. -/

namespace Sys2Proof.Machine

/-! ## Address arithmetic -/

theorem maskAddr_lt (k : Nat) : maskAddr k < 0x10000 := Nat.mod_lt _ (by decide)

theorem maskAddr_of_lt {k : Nat} (h : k < 0x10000) : maskAddr k = k := Nat.mod_eq_of_lt h

/-- PC advanced past `n` bytes addresses the byte that a plain sum masked to 16 bits does. -/
theorem maskAddr_pc (pc : Word) (n : Nat) : maskAddr (pc + BitVec.ofNat 16 n).toNat = maskAddr (pc.toNat + n) := by
  simp [maskAddr]

theorem stackAddr_lt (sp : Byte) : stackAddr sp < 0x10000 := by
  unfold stackAddr; have := sp.isLt; omega

@[simp] theorem maskAddr_stackAddr (sp : Byte) : maskAddr (stackAddr sp) = stackAddr sp :=
  maskAddr_of_lt (stackAddr_lt sp)

/-- Two stack slots are the same address only for the same SP. -/
@[simp] theorem stackAddr_inj {p q : Byte} : stackAddr p = stackAddr q ↔ p = q := by
  unfold stackAddr
  rw [Nat.add_left_cancel_iff, BitVec.toNat_inj]

/-- The three slots a push sequence reaches are different (SP wraps mod 256). -/
theorem stack_slots_distinct (p : Byte) : p - 1 ≠ p ∧ p - 2 ≠ p ∧ p - 2 ≠ p - 1 := by
  revert p; decide

/-- Every stack slot is in page 1 (40_step_and_addressing.md R97). -/
theorem stackAddr_range (sp : Byte) : 0x0100 ≤ stackAddr sp ∧ stackAddr sp ≤ 0x01FF := by
  unfold stackAddr; have := sp.isLt; omega

/-! ## Byte order -/

/-- The word is the low byte plus 256 times the high byte (20_memory.md R43). -/
theorem wordOf_toNat (lo hi : Byte) : (wordOf lo hi).toNat = lo.toNat + 256 * hi.toNat := by
  have := lo.isLt
  simp only [wordOf, BitVec.toNat_append]
  rw [← Nat.shiftLeft_add_eq_or_of_lt this, Nat.shiftLeft_eq]
  omega

theorem lowByte_toNat (w : Word) : (lowByte w).toNat = w.toNat % 256 := by
  simp [lowByte, BitVec.extractLsb'_toNat]

theorem highByte_toNat (w : Word) : (highByte w).toNat = w.toNat / 256 := by
  have := w.isLt
  simp only [highByte, BitVec.extractLsb'_toNat, Nat.shiftRight_eq_div_pow]
  omega

@[simp] theorem lowByte_wordOf (lo hi : Byte) : lowByte (wordOf lo hi) = lo := by
  apply BitVec.eq_of_toNat_eq
  rw [lowByte_toNat, wordOf_toNat]
  have := lo.isLt
  omega

@[simp] theorem highByte_wordOf (lo hi : Byte) : highByte (wordOf lo hi) = hi := by
  apply BitVec.eq_of_toNat_eq
  rw [highByte_toNat, wordOf_toNat]
  have := lo.isLt
  omega

@[simp] theorem wordOf_low_high (w : Word) : wordOf (lowByte w) (highByte w) = w := by
  apply BitVec.eq_of_toNat_eq
  rw [wordOf_toNat, lowByte_toNat, highByte_toNat]
  omega

/-! ## Memory access -/

@[simp] theorem memRead_setA (s : State) (v : Byte) (k : Nat) : memRead (s.setA v) k = memRead s k := rfl
@[simp] theorem memRead_setX (s : State) (v : Byte) (k : Nat) : memRead (s.setX v) k = memRead s k := rfl
@[simp] theorem memRead_setY (s : State) (v : Byte) (k : Nat) : memRead (s.setY v) k = memRead s k := rfl
@[simp] theorem memRead_setSp (s : State) (v : Byte) (k : Nat) : memRead (s.setSp v) k = memRead s k := rfl
@[simp] theorem memRead_setPc (s : State) (v : Word) (k : Nat) : memRead (s.setPc v) k = memRead s k := rfl
@[simp] theorem memRead_setP (s : State) (v : Byte) (k : Nat) : memRead (s.setP v) k = memRead s k := rfl
@[simp] theorem memRead_setFlag (s : State) (f : Flag) (on : Bool) (k : Nat) :
    memRead (s.setFlag f on) k = memRead s k := rfl

@[simp] theorem memWrite_a (s : State) (k : Nat) (v : Byte) : (memWrite s k v).a = s.a := rfl
@[simp] theorem memWrite_x (s : State) (k : Nat) (v : Byte) : (memWrite s k v).x = s.x := rfl
@[simp] theorem memWrite_y (s : State) (k : Nat) (v : Byte) : (memWrite s k v).y = s.y := rfl
@[simp] theorem memWrite_sp (s : State) (k : Nat) (v : Byte) : (memWrite s k v).sp = s.sp := rfl
@[simp] theorem memWrite_pc (s : State) (k : Nat) (v : Byte) : (memWrite s k v).pc = s.pc := rfl
@[simp] theorem memWrite_p (s : State) (k : Nat) (v : Byte) : (memWrite s k v).p = s.p := rfl
@[simp] theorem flag_memWrite (s : State) (k : Nat) (v : Byte) (f : Flag) :
    (memWrite s k v).flag f = s.flag f := rfl

/-- An access reduces its address to 16 bits (20_memory.md R41). -/
theorem memRead_maskAddr (s : State) (k : Nat) : memRead s (maskAddr k) = memRead s k := by
  simp [memRead, maskAddr]

/-- Read after write: the addressed byte reads as written, every other byte as before (20_memory.md R41,
R42, R54). -/
theorem memRead_memWrite (s : State) (k j : Nat) (v : Byte) :
    memRead (memWrite s k v) j = if maskAddr j = maskAddr k then v else memRead s j :=
  Memory.get_set s.mem (maskAddr k) (maskAddr j) v

/-- A byte write keeps the memory canonical. -/
theorem memWrite_wf {s : State} (k : Nat) (v : Byte) (h : Memory.wf s.mem = true) :
    Memory.wf (memWrite s k v).mem = true := Memory.wf_set v (maskAddr_lt k) h

/-! ## The NZ update -/

@[simp] theorem updateNZ_a (v : Byte) (s : State) : (updateNZ v s).a = s.a := rfl
@[simp] theorem updateNZ_x (v : Byte) (s : State) : (updateNZ v s).x = s.x := rfl
@[simp] theorem updateNZ_y (v : Byte) (s : State) : (updateNZ v s).y = s.y := rfl
@[simp] theorem updateNZ_sp (v : Byte) (s : State) : (updateNZ v s).sp = s.sp := rfl
@[simp] theorem updateNZ_pc (v : Byte) (s : State) : (updateNZ v s).pc = s.pc := rfl
@[simp] theorem updateNZ_p (v : Byte) (s : State) : (updateNZ v s).p = nzStatus v s.p := rfl
@[simp] theorem updateNZ_mem (v : Byte) (s : State) : (updateNZ v s).mem = s.mem := rfl
@[simp] theorem memRead_updateNZ (v : Byte) (s : State) (k : Nat) : memRead (updateNZ v s) k = memRead s k := rfl

/-- The flags of the state after `UpdateNZ`. -/
@[simp] theorem flag_updateNZ (v : Byte) (s : State) (f : Flag) :
    (updateNZ v s).flag f =
      if f = .n then v.getLsbD 7 else if f = .z then v == 0 else s.flag f :=
  getFlag_nzStatus f v s.p

/-! ## The stack -/

@[simp] theorem push_a (v : Byte) (s : State) : (push v s).a = s.a := rfl
@[simp] theorem push_x (v : Byte) (s : State) : (push v s).x = s.x := rfl
@[simp] theorem push_y (v : Byte) (s : State) : (push v s).y = s.y := rfl
@[simp] theorem push_sp (v : Byte) (s : State) : (push v s).sp = s.sp - 1 := rfl
@[simp] theorem push_pc (v : Byte) (s : State) : (push v s).pc = s.pc := rfl
@[simp] theorem push_p (v : Byte) (s : State) : (push v s).p = s.p := rfl
@[simp] theorem flag_push (v : Byte) (s : State) (f : Flag) : (push v s).flag f = s.flag f := rfl

/-- The memory after a push: the byte at `0x0100 + SP` (40_step_and_addressing.md R95), nothing else. -/
theorem memRead_push (v : Byte) (s : State) (k : Nat) :
    memRead (push v s) k = if maskAddr k = stackAddr s.sp then v else memRead s k := by
  have h := memRead_memWrite s (stackAddr s.sp) k v
  rw [maskAddr_stackAddr] at h
  exact h

/-- A push keeps the memory canonical. -/
theorem push_wf {s : State} (v : Byte) (h : Memory.wf s.mem = true) : Memory.wf (push v s).mem = true :=
  memWrite_wf (stackAddr s.sp) v h

@[simp] theorem pop_a (s : State) : (pop s).2.a = s.a := rfl
@[simp] theorem pop_x (s : State) : (pop s).2.x = s.x := rfl
@[simp] theorem pop_y (s : State) : (pop s).2.y = s.y := rfl
@[simp] theorem pop_sp (s : State) : (pop s).2.sp = s.sp + 1 := rfl
@[simp] theorem pop_pc (s : State) : (pop s).2.pc = s.pc := rfl
@[simp] theorem pop_p (s : State) : (pop s).2.p = s.p := rfl
@[simp] theorem pop_mem (s : State) : (pop s).2.mem = s.mem := rfl
@[simp] theorem flag_pop (s : State) (f : Flag) : (pop s).2.flag f = s.flag f := rfl
@[simp] theorem pop_value (s : State) : (pop s).1 = memRead s (stackAddr (s.sp + 1)) := rfl
@[simp] theorem memRead_pop (s : State) (k : Nat) : memRead (pop s).2 k = memRead s k := rfl

/-- Everything a word push does to the registers. -/
theorem pushWord_registers (w : Word) (s : State) :
    (pushWord w s).a = s.a ∧ (pushWord w s).x = s.x ∧ (pushWord w s).y = s.y ∧
    (pushWord w s).sp = s.sp - 1 - 1 ∧ (pushWord w s).pc = s.pc ∧ (pushWord w s).p = s.p :=
  ⟨rfl, rfl, rfl, rfl, rfl, rfl⟩

@[simp] theorem flag_pushWord (w : Word) (s : State) (f : Flag) : (pushWord w s).flag f = s.flag f := rfl

/-- The memory after a word push: the high byte at the slot of SP, the low byte one slot below. -/
theorem memRead_pushWord (w : Word) (s : State) (k : Nat) :
    memRead (pushWord w s) k =
      if maskAddr k = stackAddr (s.sp - 1) then lowByte w
      else if maskAddr k = stackAddr s.sp then highByte w else memRead s k := by
  rw [pushWord, memRead_push, push_sp, memRead_push]

theorem pushWord_wf {s : State} (w : Word) (h : Memory.wf s.mem = true) :
    Memory.wf (pushWord w s).mem = true := push_wf _ (push_wf _ h)

/-- Everything a word pop does: the word it returns, and that only SP changes. -/
theorem popWord_eq (s : State) :
    popWord s = (wordOf (memRead s (stackAddr (s.sp + 1))) (memRead s (stackAddr (s.sp + 1 + 1))),
      s.setSp (s.sp + 1 + 1)) := rfl

/-- Everything the software break does to the registers, PC aside. -/
theorem takeBreak_registers (s : State) :
    (takeBreak s).a = s.a ∧ (takeBreak s).x = s.x ∧ (takeBreak s).y = s.y ∧
    (takeBreak s).sp = s.sp - 1 - 1 - 1 ∧ (takeBreak s).p = setFlag .i true s.p := by
  simp [takeBreak, pushWord]

/-- The software break's stores are its three pushes. -/
theorem takeBreak_mem (s : State) :
    (takeBreak s).mem = (push (brkStatusCopy s.p) (pushWord (s.pc + 1) s)).mem := by
  simp [takeBreak, pushWord]

/-- The memory after the software break: the stacked status, the return address, nothing else. -/
theorem memRead_takeBreak (s : State) (k : Nat) :
    memRead (takeBreak s) k =
      if maskAddr k = stackAddr (s.sp - 1 - 1) then brkStatusCopy s.p
      else memRead (pushWord (s.pc + 1) s) k := by
  have h : memRead (takeBreak s) k = memRead (push (brkStatusCopy s.p) (pushWord (s.pc + 1) s)) k := by
    unfold memRead
    rw [takeBreak_mem]
  rw [h, memRead_push]
  rfl

theorem takeBreak_wf {s : State} (h : Memory.wf s.mem = true) : Memory.wf (takeBreak s).mem = true := by
  rw [takeBreak_mem]
  exact push_wf _ (pushWord_wf _ h)

/-! ## Zeroing and Reset -/

theorem zeroBytes_registers (n addr : Nat) (s : State) :
    (zeroBytes addr n s).a = s.a ∧ (zeroBytes addr n s).x = s.x ∧ (zeroBytes addr n s).y = s.y ∧
    (zeroBytes addr n s).sp = s.sp ∧ (zeroBytes addr n s).pc = s.pc ∧ (zeroBytes addr n s).p = s.p := by
  induction n generalizing addr s with
  | zero => exact ⟨rfl, rfl, rfl, rfl, rfl, rfl⟩
  | succ n ih => exact ih (addr + 1) (memWrite s addr 0x00)

/-- The memory after zeroing: the bytes of the range read 0x00, every other byte as before. -/
theorem memRead_zeroBytes (n addr : Nat) (s : State) (k : Nat) (h : addr + n ≤ 0x10000) :
    memRead (zeroBytes addr n s) k =
      if addr ≤ maskAddr k ∧ maskAddr k < addr + n then 0x00 else memRead s k := by
  induction n generalizing addr s with
  | zero => rw [if_neg (by omega)]; rfl
  | succ n ih =>
    have step : zeroBytes addr (n + 1) s = zeroBytes (addr + 1) n (memWrite s addr 0x00) := rfl
    rw [step, ih (addr + 1) _ (by omega), memRead_memWrite, maskAddr_of_lt (show addr < 0x10000 by omega)]
    by_cases h1 : maskAddr k = addr
    · rw [if_pos h1, ite_self, if_pos (by omega)]
    · rw [if_neg h1]
      by_cases h2 : addr + 1 ≤ maskAddr k ∧ maskAddr k < addr + 1 + n
      · rw [if_pos h2, if_pos (by omega)]
      · rw [if_neg h2, if_neg (by omega)]

theorem zeroBytes_wf {s : State} (addr n : Nat) (h : Memory.wf s.mem = true) :
    Memory.wf (zeroBytes addr n s).mem = true := by
  induction n generalizing addr s with
  | zero => exact h
  | succ n ih => exact ih (addr + 1) (memWrite_wf addr _ h)

end Sys2Proof.Machine
end

