-- ==== Sys2Proof/Laws/Decode.lean ====
section
/-! SUPPORT. The Instruction Table and the decoder: no two rows share an opcode, each row's executor is the
row's mnemonic and mode, and what a successful decoding looks like. -/

namespace Sys2Proof

open Machine

/-- No two rows of the Instruction Table have the same opcode byte. -/
theorem instructionTable_opcodes_distinct : (instructionTable.map Entry.opcode).Nodup := by decide

/-- The instruction that an entry's executor makes of an operand byte or word. -/
def Executor.apply : Executor → Byte → Word → Instr
  | .imp i, _, _ => i
  | .b8 f, b, _ => f b
  | .w16 f, _, w => f w

/-- How many operand bytes an executor takes. -/
def Executor.operandBytes : Executor → Nat
  | .imp _ => 0
  | .b8 _ => 1
  | .w16 _ => 2

/-- A found entry is a row of the table with the opcode looked up. -/
theorem lookup_some {op : Byte} {e : Entry} (h : lookup op = some e) :
    e ∈ instructionTable ∧ e.opcode = op :=
  ⟨List.mem_of_find?_eq_some h, by simpa using List.find?_some h⟩

/-- Each row's executor makes instructions of the row's opcode, mnemonic and mode, and takes as many
operand bytes as the mode has (30_encoding.md R61, R67). -/
theorem table_row_executor :
    ∀ e ∈ instructionTable, e.executor.operandBytes = e.mode.operandBytes ∧
      ∀ b w, (e.executor.apply b w).opcode = e.opcode ∧ (e.executor.apply b w).mnemonic = e.mnemonic ∧
        (e.executor.apply b w).mode = e.mode := by
  simp only [instructionTable, loadTable, storeTable, aluTable, impliedTable, List.cons_append,
    List.nil_append, List.forall_mem_cons]
  repeat' first
    | exact ⟨rfl, fun _ _ => ⟨rfl, rfl, rfl⟩⟩
    | exact fun _ h => absurd h List.not_mem_nil
    | constructor

/-- The same of a found entry. -/
theorem lookup_executor {op : Byte} {e : Entry} (h : lookup op = some e) (b : Byte) (w : Word) :
    e.executor.operandBytes = e.mode.operandBytes ∧ (e.executor.apply b w).opcode = op ∧
      (e.executor.apply b w).mnemonic = e.mnemonic ∧ (e.executor.apply b w).mode = e.mode := by
  obtain ⟨hmem, rfl⟩ := lookup_some h
  obtain ⟨hlen, hrow⟩ := table_row_executor e hmem
  exact ⟨hlen, hrow b w⟩

end Sys2Proof
end

