-- ==== Sys2Proof/Laws/Meaning.lean ====
section
/-! SUPPORT. What the shared meanings of the load, ALU and transfer families leave in each field: the
destination register, the flags, and nothing else. -/

namespace Sys2Proof.Machine

variable (s : State)

@[simp] theorem loadA_a (o : Source) : (loadA o s).a = o.value s := rfl
@[simp] theorem loadA_x (o : Source) : (loadA o s).x = s.x := rfl
@[simp] theorem loadA_y (o : Source) : (loadA o s).y = s.y := rfl
@[simp] theorem loadA_sp (o : Source) : (loadA o s).sp = s.sp := rfl
@[simp] theorem loadA_pc (o : Source) : (loadA o s).pc = s.pc := rfl
@[simp] theorem loadA_mem (o : Source) : (loadA o s).mem = s.mem := rfl
@[simp] theorem memRead_loadA (o : Source) (k : Nat) : memRead (loadA o s) k = memRead s k := rfl
@[simp] theorem loadA_p (o : Source) : (loadA o s).p = nzStatus (o.value s) s.p := rfl
@[simp] theorem flag_loadA (o : Source) (f : Flag) : (loadA o s).flag f =
    if f = .n then (o.value s).getLsbD 7 else if f = .z then (o.value s) == 0 else s.flag f :=
  getFlag_nzStatus f _ s.p

@[simp] theorem loadX_a (o : Source) : (loadX o s).a = s.a := rfl
@[simp] theorem loadX_x (o : Source) : (loadX o s).x = o.value s := rfl
@[simp] theorem loadX_y (o : Source) : (loadX o s).y = s.y := rfl
@[simp] theorem loadX_sp (o : Source) : (loadX o s).sp = s.sp := rfl
@[simp] theorem loadX_pc (o : Source) : (loadX o s).pc = s.pc := rfl
@[simp] theorem loadX_mem (o : Source) : (loadX o s).mem = s.mem := rfl
@[simp] theorem memRead_loadX (o : Source) (k : Nat) : memRead (loadX o s) k = memRead s k := rfl
@[simp] theorem loadX_p (o : Source) : (loadX o s).p = nzStatus (o.value s) s.p := rfl
@[simp] theorem flag_loadX (o : Source) (f : Flag) : (loadX o s).flag f =
    if f = .n then (o.value s).getLsbD 7 else if f = .z then (o.value s) == 0 else s.flag f :=
  getFlag_nzStatus f _ s.p

@[simp] theorem loadY_a (o : Source) : (loadY o s).a = s.a := rfl
@[simp] theorem loadY_x (o : Source) : (loadY o s).x = s.x := rfl
@[simp] theorem loadY_y (o : Source) : (loadY o s).y = o.value s := rfl
@[simp] theorem loadY_sp (o : Source) : (loadY o s).sp = s.sp := rfl
@[simp] theorem loadY_pc (o : Source) : (loadY o s).pc = s.pc := rfl
@[simp] theorem loadY_mem (o : Source) : (loadY o s).mem = s.mem := rfl
@[simp] theorem memRead_loadY (o : Source) (k : Nat) : memRead (loadY o s) k = memRead s k := rfl
@[simp] theorem loadY_p (o : Source) : (loadY o s).p = nzStatus (o.value s) s.p := rfl
@[simp] theorem flag_loadY (o : Source) (f : Flag) : (loadY o s).flag f =
    if f = .n then (o.value s).getLsbD 7 else if f = .z then (o.value s) == 0 else s.flag f :=
  getFlag_nzStatus f _ s.p

@[simp] theorem addWithCarry_a (o : Source) : (addWithCarry o s).a = BitVec.ofNat 8 (adcSum s.a (o.value s) (s.flag .c)) := rfl
@[simp] theorem addWithCarry_x (o : Source) : (addWithCarry o s).x = s.x := rfl
@[simp] theorem addWithCarry_y (o : Source) : (addWithCarry o s).y = s.y := rfl
@[simp] theorem addWithCarry_sp (o : Source) : (addWithCarry o s).sp = s.sp := rfl
@[simp] theorem addWithCarry_pc (o : Source) : (addWithCarry o s).pc = s.pc := rfl
@[simp] theorem addWithCarry_mem (o : Source) : (addWithCarry o s).mem = s.mem := rfl
@[simp] theorem memRead_addWithCarry (o : Source) (k : Nat) : memRead (addWithCarry o s) k = memRead s k := rfl
@[simp] theorem addWithCarry_p (o : Source) : (addWithCarry o s).p =
    adcStatus Config.adcBit6Target (adcSum s.a (o.value s) (s.flag .c)) s.p := rfl

@[simp] theorem andWithA_a (o : Source) : (andWithA o s).a = s.a &&& o.value s := rfl
@[simp] theorem andWithA_x (o : Source) : (andWithA o s).x = s.x := rfl
@[simp] theorem andWithA_y (o : Source) : (andWithA o s).y = s.y := rfl
@[simp] theorem andWithA_sp (o : Source) : (andWithA o s).sp = s.sp := rfl
@[simp] theorem andWithA_pc (o : Source) : (andWithA o s).pc = s.pc := rfl
@[simp] theorem andWithA_mem (o : Source) : (andWithA o s).mem = s.mem := rfl
@[simp] theorem memRead_andWithA (o : Source) (k : Nat) : memRead (andWithA o s) k = memRead s k := rfl
@[simp] theorem andWithA_p (o : Source) : (andWithA o s).p = nzStatus (s.a &&& o.value s) s.p := rfl
@[simp] theorem flag_andWithA (o : Source) (f : Flag) : (andWithA o s).flag f =
    if f = .n then (s.a &&& o.value s).getLsbD 7 else if f = .z then (s.a &&& o.value s) == 0 else s.flag f :=
  getFlag_nzStatus f _ s.p

@[simp] theorem writeA_a (v : Byte) : (writeA v s).a = v := rfl
@[simp] theorem writeA_x (v : Byte) : (writeA v s).x = s.x := rfl
@[simp] theorem writeA_y (v : Byte) : (writeA v s).y = s.y := rfl
@[simp] theorem writeA_sp (v : Byte) : (writeA v s).sp = s.sp := rfl
@[simp] theorem writeA_pc (v : Byte) : (writeA v s).pc = s.pc := rfl
@[simp] theorem writeA_mem (v : Byte) : (writeA v s).mem = s.mem := rfl
@[simp] theorem memRead_writeA (v : Byte) (k : Nat) : memRead (writeA v s) k = memRead s k := rfl
@[simp] theorem writeA_p (v : Byte) : (writeA v s).p = nzStatus (v) s.p := rfl
@[simp] theorem flag_writeA (v : Byte) (f : Flag) : (writeA v s).flag f =
    if f = .n then (v).getLsbD 7 else if f = .z then (v) == 0 else s.flag f :=
  getFlag_nzStatus f _ s.p

@[simp] theorem writeX_a (v : Byte) : (writeX v s).a = s.a := rfl
@[simp] theorem writeX_x (v : Byte) : (writeX v s).x = v := rfl
@[simp] theorem writeX_y (v : Byte) : (writeX v s).y = s.y := rfl
@[simp] theorem writeX_sp (v : Byte) : (writeX v s).sp = s.sp := rfl
@[simp] theorem writeX_pc (v : Byte) : (writeX v s).pc = s.pc := rfl
@[simp] theorem writeX_mem (v : Byte) : (writeX v s).mem = s.mem := rfl
@[simp] theorem memRead_writeX (v : Byte) (k : Nat) : memRead (writeX v s) k = memRead s k := rfl
@[simp] theorem writeX_p (v : Byte) : (writeX v s).p = nzStatus (v) s.p := rfl
@[simp] theorem flag_writeX (v : Byte) (f : Flag) : (writeX v s).flag f =
    if f = .n then (v).getLsbD 7 else if f = .z then (v) == 0 else s.flag f :=
  getFlag_nzStatus f _ s.p

@[simp] theorem writeY_a (v : Byte) : (writeY v s).a = s.a := rfl
@[simp] theorem writeY_x (v : Byte) : (writeY v s).x = s.x := rfl
@[simp] theorem writeY_y (v : Byte) : (writeY v s).y = v := rfl
@[simp] theorem writeY_sp (v : Byte) : (writeY v s).sp = s.sp := rfl
@[simp] theorem writeY_pc (v : Byte) : (writeY v s).pc = s.pc := rfl
@[simp] theorem writeY_mem (v : Byte) : (writeY v s).mem = s.mem := rfl
@[simp] theorem memRead_writeY (v : Byte) (k : Nat) : memRead (writeY v s) k = memRead s k := rfl
@[simp] theorem writeY_p (v : Byte) : (writeY v s).p = nzStatus (v) s.p := rfl
@[simp] theorem flag_writeY (v : Byte) (f : Flag) : (writeY v s).flag f =
    if f = .n then (v).getLsbD 7 else if f = .z then (v) == 0 else s.flag f :=
  getFlag_nzStatus f _ s.p

/-- The memory after a store: the byte at the effective address, nothing else. -/
theorem memRead_store (o : Address) (v : Byte) (k : Nat) :
    memRead (store o v s) k = if maskAddr k = maskAddr (o.ea s) then v else memRead s k :=
  memRead_memWrite s (o.ea s) k v

theorem store_wf {s : State} (o : Address) (v : Byte) (h : Memory.wf s.mem = true) :
    Memory.wf (store o v s).mem = true := memWrite_wf (o.ea s) v h

@[simp] theorem store_a (o : Address) (v : Byte) : (store o v s).a = s.a := rfl
@[simp] theorem store_x (o : Address) (v : Byte) : (store o v s).x = s.x := rfl
@[simp] theorem store_y (o : Address) (v : Byte) : (store o v s).y = s.y := rfl
@[simp] theorem store_sp (o : Address) (v : Byte) : (store o v s).sp = s.sp := rfl
@[simp] theorem store_pc (o : Address) (v : Byte) : (store o v s).pc = s.pc := rfl
@[simp] theorem store_p (o : Address) (v : Byte) : (store o v s).p = s.p := rfl
@[simp] theorem flag_store (o : Address) (v : Byte) (f : Flag) : (store o v s).flag f = s.flag f := rfl

end Sys2Proof.Machine
end

