-- ==== Sys2Proof/Laws/PerInstr.lean ====
section
/-! SUPPORT. Facts proved once per instruction, over `Instr` as syntax. -/

namespace Sys2Proof.Laws.TableRow

/-- The instruction is well-formed, its opcode byte has a row of the Instruction Table with its mnemonic
and mode, and its encoding has its length. -/
def Statement (i : Instr) : Prop :=
  WellFormed i = true ∧
  (lookup i.opcode).map (fun e => (e.mnemonic, e.mode)) = some (i.mnemonic, i.mode) ∧
  (encode i).length = i.length

theorem ldaImm (b : Byte) : Statement (.ldaImm b) := ⟨decide_eq_true b.isLt, rfl, rfl⟩
theorem ldaZp (b : Byte) : Statement (.ldaZp b) := ⟨decide_eq_true b.isLt, rfl, rfl⟩
theorem ldaZpx (b : Byte) : Statement (.ldaZpx b) := ⟨decide_eq_true b.isLt, rfl, rfl⟩
theorem ldaAbs (w : Word) : Statement (.ldaAbs w) := ⟨decide_eq_true w.isLt, rfl, rfl⟩
theorem ldaAbx (w : Word) : Statement (.ldaAbx w) := ⟨decide_eq_true w.isLt, rfl, rfl⟩
theorem ldaAby (w : Word) : Statement (.ldaAby w) := ⟨decide_eq_true w.isLt, rfl, rfl⟩
theorem ldxImm (b : Byte) : Statement (.ldxImm b) := ⟨decide_eq_true b.isLt, rfl, rfl⟩
theorem ldxZp (b : Byte) : Statement (.ldxZp b) := ⟨decide_eq_true b.isLt, rfl, rfl⟩
theorem ldxZpy (b : Byte) : Statement (.ldxZpy b) := ⟨decide_eq_true b.isLt, rfl, rfl⟩
theorem ldxAbs (w : Word) : Statement (.ldxAbs w) := ⟨decide_eq_true w.isLt, rfl, rfl⟩
theorem ldxAby (w : Word) : Statement (.ldxAby w) := ⟨decide_eq_true w.isLt, rfl, rfl⟩
theorem ldyImm (b : Byte) : Statement (.ldyImm b) := ⟨decide_eq_true b.isLt, rfl, rfl⟩
theorem ldyZp (b : Byte) : Statement (.ldyZp b) := ⟨decide_eq_true b.isLt, rfl, rfl⟩
theorem ldyZpx (b : Byte) : Statement (.ldyZpx b) := ⟨decide_eq_true b.isLt, rfl, rfl⟩
theorem ldyAbs (w : Word) : Statement (.ldyAbs w) := ⟨decide_eq_true w.isLt, rfl, rfl⟩
theorem ldyAbx (w : Word) : Statement (.ldyAbx w) := ⟨decide_eq_true w.isLt, rfl, rfl⟩
theorem staZp (b : Byte) : Statement (.staZp b) := ⟨decide_eq_true b.isLt, rfl, rfl⟩
theorem staZpx (b : Byte) : Statement (.staZpx b) := ⟨decide_eq_true b.isLt, rfl, rfl⟩
theorem staAbs (w : Word) : Statement (.staAbs w) := ⟨decide_eq_true w.isLt, rfl, rfl⟩
theorem staAbx (w : Word) : Statement (.staAbx w) := ⟨decide_eq_true w.isLt, rfl, rfl⟩
theorem staAby (w : Word) : Statement (.staAby w) := ⟨decide_eq_true w.isLt, rfl, rfl⟩
theorem stxZp (b : Byte) : Statement (.stxZp b) := ⟨decide_eq_true b.isLt, rfl, rfl⟩
theorem stxZpy (b : Byte) : Statement (.stxZpy b) := ⟨decide_eq_true b.isLt, rfl, rfl⟩
theorem stxAbs (w : Word) : Statement (.stxAbs w) := ⟨decide_eq_true w.isLt, rfl, rfl⟩
theorem styZp (b : Byte) : Statement (.styZp b) := ⟨decide_eq_true b.isLt, rfl, rfl⟩
theorem styZpx (b : Byte) : Statement (.styZpx b) := ⟨decide_eq_true b.isLt, rfl, rfl⟩
theorem styAbs (w : Word) : Statement (.styAbs w) := ⟨decide_eq_true w.isLt, rfl, rfl⟩
theorem adcImm (b : Byte) : Statement (.adcImm b) := ⟨decide_eq_true b.isLt, rfl, rfl⟩
theorem adcZp (b : Byte) : Statement (.adcZp b) := ⟨decide_eq_true b.isLt, rfl, rfl⟩
theorem adcZpx (b : Byte) : Statement (.adcZpx b) := ⟨decide_eq_true b.isLt, rfl, rfl⟩
theorem adcAbs (w : Word) : Statement (.adcAbs w) := ⟨decide_eq_true w.isLt, rfl, rfl⟩
theorem adcAbx (w : Word) : Statement (.adcAbx w) := ⟨decide_eq_true w.isLt, rfl, rfl⟩
theorem adcAby (w : Word) : Statement (.adcAby w) := ⟨decide_eq_true w.isLt, rfl, rfl⟩
theorem andImm (b : Byte) : Statement (.andImm b) := ⟨decide_eq_true b.isLt, rfl, rfl⟩
theorem andZp (b : Byte) : Statement (.andZp b) := ⟨decide_eq_true b.isLt, rfl, rfl⟩
theorem andZpx (b : Byte) : Statement (.andZpx b) := ⟨decide_eq_true b.isLt, rfl, rfl⟩
theorem andAbs (w : Word) : Statement (.andAbs w) := ⟨decide_eq_true w.isLt, rfl, rfl⟩
theorem andAbx (w : Word) : Statement (.andAbx w) := ⟨decide_eq_true w.isLt, rfl, rfl⟩
theorem andAby (w : Word) : Statement (.andAby w) := ⟨decide_eq_true w.isLt, rfl, rfl⟩
theorem tax : Statement .tax := ⟨rfl, rfl, rfl⟩
theorem tay : Statement .tay := ⟨rfl, rfl, rfl⟩
theorem txa : Statement .txa := ⟨rfl, rfl, rfl⟩
theorem tya : Statement .tya := ⟨rfl, rfl, rfl⟩
theorem inx : Statement .inx := ⟨rfl, rfl, rfl⟩
theorem iny : Statement .iny := ⟨rfl, rfl, rfl⟩
theorem dex : Statement .dex := ⟨rfl, rfl, rfl⟩
theorem dey : Statement .dey := ⟨rfl, rfl, rfl⟩
theorem jmp (w : Word) : Statement (.jmp w) := ⟨decide_eq_true w.isLt, rfl, rfl⟩
theorem jsr (w : Word) : Statement (.jsr w) := ⟨decide_eq_true w.isLt, rfl, rfl⟩
theorem rts : Statement .rts := ⟨rfl, rfl, rfl⟩
theorem pha : Statement .pha := ⟨rfl, rfl, rfl⟩
theorem pla : Statement .pla := ⟨rfl, rfl, rfl⟩
theorem brk : Statement .brk := ⟨rfl, rfl, rfl⟩

end Sys2Proof.Laws.TableRow
end

