-- ==== Sys2Proof/Laws/Step.lean ====
section
/-! SUPPORT. What a fetch and a step can do. -/

namespace Sys2Proof.Machine

/-- A fetch finds nothing exactly where the opcode is unpopulated. -/
theorem fetchInstr_none {s : State} : fetchInstr s = none ↔ lookup (opcodeAtPc s) = none := by
  unfold fetchInstr
  cases h : lookup (opcodeAtPc s) with
  | none => simp
  | some e => cases he : e.executor <;> simp [he]

/-- A successful fetch: the entry, the instruction its executor makes of the operand bytes, and only PC
changed, past the instruction. -/
theorem fetchInstr_some {s s1 : State} {i : Instr} (h : fetchInstr s = some (i, s1)) :
    ∃ e, lookup (opcodeAtPc s) = some e ∧
      i = e.executor.apply (memRead s (s.pc + 1).toNat) (readWord s (s.pc + 1).toNat) ∧
      s1 = s.setPc (s.pc + BitVec.ofNat 16 i.length) := by
  unfold fetchInstr at h
  cases hl : lookup (opcodeAtPc s) with
  | none => simp [hl] at h
  | some e =>
    have row := lookup_executor hl
    refine ⟨e, rfl, ?_⟩
    simp only [hl] at h
    cases he : e.executor with
    | imp j =>
      simp only [he, Option.some.injEq, Prod.mk.injEq] at h
      obtain ⟨rfl, rfl⟩ := h
      have hm := row 0 0
      simp only [he, Executor.operandBytes, Executor.apply] at hm
      refine ⟨rfl, ?_⟩
      rw [Instr.length, hm.2.2.2, ← hm.1]
      rfl
    | b8 f =>
      simp only [he, Option.some.injEq, Prod.mk.injEq] at h
      obtain ⟨rfl, rfl⟩ := h
      have hm := row (fetchByte (s.setPc (s.pc + 1))).1 0
      simp only [he, Executor.operandBytes, Executor.apply] at hm
      refine ⟨rfl, ?_⟩
      rw [Instr.length, hm.2.2.2, ← hm.1]
      simp only [fetchByte, setPc_pc, BitVec.add_assoc]
      rfl
    | w16 f =>
      simp only [he, Option.some.injEq, Prod.mk.injEq] at h
      obtain ⟨rfl, rfl⟩ := h
      have hm := row 0 (fetchWord (s.setPc (s.pc + 1))).1
      simp only [he, Executor.operandBytes, Executor.apply] at hm
      refine ⟨rfl, ?_⟩
      rw [Instr.length, hm.2.2.2, ← hm.1]
      simp only [fetchWord, setPc_pc, BitVec.add_assoc]
      rfl

/-- A fetch reads nothing of the status register. -/
theorem fetchInstr_setP (s : State) (p : Byte) :
    fetchInstr (s.setP p) = (fetchInstr s).map fun r => (r.1, r.2.setP p) := by
  have hop : opcodeAtPc (s.setP p) = opcodeAtPc s := rfl
  unfold fetchInstr
  rw [hop]
  cases lookup (opcodeAtPc s) with
  | none => rfl
  | some e => cases h : e.executor <;> simp [h] <;> first | rfl | exact ⟨rfl, rfl⟩

/-- The fetch agrees with the decoder on the three bytes from PC on, addresses mod 65536. -/
theorem fetchInstr_of_decode {s : State} {i : Instr} {rest : List Byte}
    (h : decode (bytesFrom s s.pc.toNat 3) = .ok i rest) :
    fetchInstr s = some (i, s.setPc (s.pc + BitVec.ofNat 16 i.length)) := by
  have hb : bytesFrom s s.pc.toNat 3 = [opcodeAtPc s, memRead s (s.pc.toNat + 1), memRead s (s.pc.toNat + 2)] := rfl
  have h1 : memRead s (s.pc + 1).toNat = memRead s (s.pc.toNat + 1) := by
    rw [← memRead_maskAddr s (s.pc.toNat + 1)]
    rfl
  have h2 : readWord s (s.pc + 1).toNat = wordOf (memRead s (s.pc.toNat + 1)) (memRead s (s.pc.toNat + 2)) := by
    rw [readWord, h1, ← memRead_maskAddr s ((s.pc + 1).toNat + 1), ← memRead_maskAddr s (s.pc.toNat + 2)]
    congr 2
    simp [maskAddr]
  rw [hb, decode] at h
  cases hf : fetchInstr s with
  | none => simp [fetchInstr_none.mp hf] at h
  | some r =>
    obtain ⟨e, hl, hi, hs⟩ := fetchInstr_some (i := r.1) (s1 := r.2) hf
    rw [h1, h2] at hi
    simp only [hl] at h
    have hr : r.1 = i := by
      rw [hi]
      cases he : e.executor <;> simp only [he, Decoded.ok.injEq] at h <;> exact h.1
    rw [← hr, ← hs]

/-- A step after a successful fetch is the executor on the fetched state. -/
theorem step_of_fetch {s s1 : State} {i : Instr} (h : fetchInstr s = some (i, s1)) : step s = exec i s1 := by
  unfold step
  rw [h]

/-- Everything a step can do: stall, or run the instruction it fetched. -/
theorem step_cases {s t : State} (h : step s = .next t) :
    (lookup (opcodeAtPc s) = none ∧ t = s) ∨
    ∃ i s1, fetchInstr s = some (i, s1) ∧ exec i s1 = .next t := by
  unfold step at h
  cases hf : fetchInstr s with
  | none =>
    simp only [hf, Host.Outcome.next.injEq] at h
    exact .inl ⟨fetchInstr_none.mp hf, h.symm⟩
  | some r =>
    obtain ⟨i, s1⟩ := r
    exact .inr ⟨i, s1, rfl, by simpa [hf] using h⟩

/-- A run of one more step, after a step that answers a next state. -/
theorem run_succ_of_next {s t : State} (n : Nat) (h : step s = .next t) :
    core.run (n + 1) s = core.run n t := by
  have key : ∀ (M : Host.Core) (s t : M.State), M.step s = .next t → M.run (n + 1) s = M.run n t := by
    intro M s t h
    rw [Host.Core.run, h]
  exact key core s t h

end Sys2Proof.Machine
end

