-- ==== Sys2Proof/Tests/Slice0.lean ====
section
/-! SUPPORT. The model's own tests: the well-formedness smoke, one word per constructor written from
opcode_table.json, single-step vectors of 95_test_vectors.md (their numbers in the docstrings), and one
witness per hypothesis of a statement. Every expected value is the spec's. -/

namespace Sys2Proof.Tests

open Sys2Proof.Machine

/-- The reset state with these registers. -/
def regs (a x y sp p : Byte) : State := { State.reset with a := a, x := x, y := y, sp := sp, p := p }

/-- The state with these memory bytes. -/
def poke (cells : List (Nat × Byte)) (s : State) : State := cells.foldl (fun t c => memWrite t c.1 c.2) s

/-- The state about to run these bytes at an address. -/
def placed (pc : Word) (bytes : List Byte) (s : State) : State := writeBytes bytes pc.toNat (s.setPc pc)

/-- What one step leaves, seen through `f`. -/
def after {α : Type} (s : State) (f : State → α) : Option α :=
  match step s with
  | .next t => some (f t)
  | .fault _ => none
  | .refused _ => none

/-- What a transaction leaves, seen through `f`. -/
def afterT {α : Type} (x : Transaction) (s : State) (f : State → Reply → α) : Option α :=
  match transact x s with
  | .next (t, r) => some (f t r)
  | .fault _ => none
  | .refused _ => none

/-! Well-formedness: one ill-formed term for each check. -/

theorem test_wf_refuses_untaken_modes :
    Written.wellFormed ⟨.sta, .imm, 0x42⟩ = false ∧ Written.wellFormed ⟨.ldx, .zpx, 0x42⟩ = false ∧
      Written.wellFormed ⟨.lda, .zpy, 0x42⟩ = false ∧ Written.wellFormed ⟨.jmp, .imp, 0⟩ = false ∧
      Written.wellFormed ⟨.brk, .imm, 0⟩ = false := by decide

theorem test_wf_refuses_wide_operands :
    Written.wellFormed ⟨.lda, .imm, 0x100⟩ = false ∧ Written.wellFormed ⟨.stx, .zpy, 0x100⟩ = false ∧
      Written.wellFormed ⟨.lda, .abs, 0x10000⟩ = false ∧ Written.wellFormed ⟨.tax, .imp, 1⟩ = false := by decide

theorem test_wf_accepts_the_bounds :
    Written.wellFormed ⟨.lda, .imm, 0xFF⟩ = true ∧ Written.wellFormed ⟨.lda, .abs, 0xFFFF⟩ = true ∧
      Written.wellFormed ⟨.tax, .imp, 0⟩ = true ∧ WellFormed (.staAby 0xFFFF) = true := by decide

/-! Decoding: every row's word from opcode_table.json, followed by a byte that is not its own. -/

theorem test_decode_lda :
    decode [0b10100101, 0xF1, 0x5C] = .ok (.ldaZp 0xF1) [0x5C] ∧
      decode [0b10101001, 0xF1, 0x5C] = .ok (.ldaImm 0xF1) [0x5C] ∧
      decode [0b10101101, 0x34, 0xF2, 0x5C] = .ok (.ldaAbs 0xF234) [0x5C] ∧
      decode [0b10110101, 0xF1, 0x5C] = .ok (.ldaZpx 0xF1) [0x5C] ∧
      decode [0b10111001, 0x34, 0xF2, 0x5C] = .ok (.ldaAby 0xF234) [0x5C] ∧
      decode [0b10111101, 0x34, 0xF2, 0x5C] = .ok (.ldaAbx 0xF234) [0x5C] := by decide

theorem test_decode_ldx :
    decode [0b10100010, 0xF1, 0x5C] = .ok (.ldxImm 0xF1) [0x5C] ∧
      decode [0b10100110, 0xF1, 0x5C] = .ok (.ldxZp 0xF1) [0x5C] ∧
      decode [0b10101110, 0x34, 0xF2, 0x5C] = .ok (.ldxAbs 0xF234) [0x5C] ∧
      decode [0b10110110, 0xF1, 0x5C] = .ok (.ldxZpy 0xF1) [0x5C] ∧
      decode [0b10111110, 0x34, 0xF2, 0x5C] = .ok (.ldxAby 0xF234) [0x5C] := by decide

theorem test_decode_ldy :
    decode [0b10100000, 0xF1, 0x5C] = .ok (.ldyImm 0xF1) [0x5C] ∧
      decode [0b10100100, 0xF1, 0x5C] = .ok (.ldyZp 0xF1) [0x5C] ∧
      decode [0b10101100, 0x34, 0xF2, 0x5C] = .ok (.ldyAbs 0xF234) [0x5C] ∧
      decode [0b10110100, 0xF1, 0x5C] = .ok (.ldyZpx 0xF1) [0x5C] ∧
      decode [0b10111100, 0x34, 0xF2, 0x5C] = .ok (.ldyAbx 0xF234) [0x5C] := by decide

theorem test_decode_sta :
    decode [0b10000101, 0xF1, 0x5C] = .ok (.staZp 0xF1) [0x5C] ∧
      decode [0b10001101, 0x34, 0xF2, 0x5C] = .ok (.staAbs 0xF234) [0x5C] ∧
      decode [0b10010101, 0xF1, 0x5C] = .ok (.staZpx 0xF1) [0x5C] ∧
      decode [0b10011001, 0x34, 0xF2, 0x5C] = .ok (.staAby 0xF234) [0x5C] ∧
      decode [0b10011101, 0x34, 0xF2, 0x5C] = .ok (.staAbx 0xF234) [0x5C] := by decide

theorem test_decode_stx :
    decode [0b10000110, 0xF1, 0x5C] = .ok (.stxZp 0xF1) [0x5C] ∧
      decode [0b10001110, 0x34, 0xF2, 0x5C] = .ok (.stxAbs 0xF234) [0x5C] ∧
      decode [0b10010110, 0xF1, 0x5C] = .ok (.stxZpy 0xF1) [0x5C] := by decide

theorem test_decode_sty :
    decode [0b10000100, 0xF1, 0x5C] = .ok (.styZp 0xF1) [0x5C] ∧
      decode [0b10001100, 0x34, 0xF2, 0x5C] = .ok (.styAbs 0xF234) [0x5C] ∧
      decode [0b10010100, 0xF1, 0x5C] = .ok (.styZpx 0xF1) [0x5C] := by decide

theorem test_decode_adc :
    decode [0b01100101, 0xF1, 0x5C] = .ok (.adcZp 0xF1) [0x5C] ∧
      decode [0b01101001, 0xF1, 0x5C] = .ok (.adcImm 0xF1) [0x5C] ∧
      decode [0b01101101, 0x34, 0xF2, 0x5C] = .ok (.adcAbs 0xF234) [0x5C] ∧
      decode [0b01110101, 0xF1, 0x5C] = .ok (.adcZpx 0xF1) [0x5C] ∧
      decode [0b01111001, 0x34, 0xF2, 0x5C] = .ok (.adcAby 0xF234) [0x5C] ∧
      decode [0b01111101, 0x34, 0xF2, 0x5C] = .ok (.adcAbx 0xF234) [0x5C] := by decide

theorem test_decode_and :
    decode [0b00100101, 0xF1, 0x5C] = .ok (.andZp 0xF1) [0x5C] ∧
      decode [0b00101001, 0xF1, 0x5C] = .ok (.andImm 0xF1) [0x5C] ∧
      decode [0b00101101, 0x34, 0xF2, 0x5C] = .ok (.andAbs 0xF234) [0x5C] ∧
      decode [0b00110101, 0xF1, 0x5C] = .ok (.andZpx 0xF1) [0x5C] ∧
      decode [0b00111001, 0x34, 0xF2, 0x5C] = .ok (.andAby 0xF234) [0x5C] ∧
      decode [0b00111101, 0x34, 0xF2, 0x5C] = .ok (.andAbx 0xF234) [0x5C] := by decide

theorem test_decode_tax_tay_txa_tya :
    decode [0b10101010, 0x5C] = .ok .tax [0x5C] ∧
      decode [0b10101000, 0x5C] = .ok .tay [0x5C] ∧
      decode [0b10001010, 0x5C] = .ok .txa [0x5C] ∧
      decode [0b10011000, 0x5C] = .ok .tya [0x5C] := by decide

theorem test_decode_inx_iny_dex_dey :
    decode [0b11101000, 0x5C] = .ok .inx [0x5C] ∧
      decode [0b11001000, 0x5C] = .ok .iny [0x5C] ∧
      decode [0b11001010, 0x5C] = .ok .dex [0x5C] ∧
      decode [0b10001000, 0x5C] = .ok .dey [0x5C] := by decide

theorem test_decode_jmp_jsr_rts :
    decode [0b01001100, 0x34, 0xF2, 0x5C] = .ok (.jmp 0xF234) [0x5C] ∧
      decode [0b00100000, 0x34, 0xF2, 0x5C] = .ok (.jsr 0xF234) [0x5C] ∧
      decode [0b01100000, 0x5C] = .ok .rts [0x5C] := by decide

theorem test_decode_pha_pla_brk :
    decode [0b01001000, 0x5C] = .ok .pha [0x5C] ∧
      decode [0b01101000, 0x5C] = .ok .pla [0x5C] ∧
      decode [0b00000000, 0x5C] = .ok .brk [0x5C] := by decide

theorem test_decode_rejects :
    decode [] = .noBytes ∧ decode [0xFF, 0x00] = .unknownOpcode 0xFF ∧ decode [0xEA] = .unknownOpcode 0xEA ∧
      decode [0x40] = .unknownOpcode 0x40 ∧ decode [0x6C, 0x00, 0x02] = .unknownOpcode 0x6C ∧
      decode [0xA9] = .truncated 0xA9 ∧ decode [0x8D, 0x02] = .truncated 0x8D := by decide

/-- Bit 0 of the table word is bit 0 of the first byte; operand bytes above `nbits` are zero. -/
theorem test_table_words :
    decodeTableWord 24 0x02018D = some (.staAbs 0x0201) ∧ decodeTableWord 16 0x42A9 = some (.ldaImm 0x42) ∧
      decodeTableWord 8 0xAD = some (.ldaAbs 0x0000) ∧ decodeTableWord 8 0x00 = some .brk ∧
      decodeTableWord 8 0x1AD = some (.ldaAbs 0x0000) ∧ decodeTableWord 8 0xFF = none := by decide

theorem test_fetch_word_is_run :
    after (State.reset.withFetchWord 16 0x80A9) (fun t => (t.a, t.p, t.pc)) = some (0x80, 0xA4, 0x0002) ∧
      after (State.reset.withFetchWord 24 0x12344C) (fun t => t.pc) = some 0x1234 := by decide

/-! The status byte and the shared operations. -/

/-- S1. -/
theorem test_updateNZ :
    ([(0x00, 0x24), (0x01, 0x26), (0x7F, 0xA4), (0x80, 0x24), (0xFF, 0x7D), (0x00, 0xFF)].map
      fun c : Byte × Byte => (updateNZ c.1 (regs 0 0 0 0 c.2)).p) = [0x26, 0x24, 0x24, 0xA4, 0xFD, 0x7F] := by decide

/-- S2, VH10. -/
theorem test_push_then_pop_at_slot_zero :
    afterT (.push 0xC3) (regs 0 0 0 0x00 0x24) (fun t _ => (t.sp, memRead t 0x0100)) = some (0xFF, 0xC3) ∧
      afterT .pop (regs 0 0 0 0xFF 0x24 |> poke [(0x0100, 0xC3)]) (fun t r => (t.sp, r)) = some (0x00, .value 0xC3) := by decide

/-- S5. -/
theorem test_word_write_at_the_top :
    afterT (.writeWord 0xFFFF 0xBEEF) State.reset (fun t _ => (memRead t 0xFFFF, memRead t 0x0000)) = some (0xEF, 0xBE) ∧
      afterT (.readWord 0xFFFF) (poke [(0xFFFF, 0xEF), (0x0000, 0xBE)] State.reset) (fun _ r => r) = some (.value 0xBEEF) := by decide

/-! Addressing, loads and stores. -/

/-- VA1. -/
theorem test_sta_zpx_wraps_in_page_zero :
    after (placed 0x0010 [0x95, 0xF0] (regs 0x99 0x20 0x00 0xFF 0x26))
        (fun t => (memRead t 0x0010, t.p, t.pc)) = some (0x99, 0x26, 0x0012) ∧
      (stepReturn (placed 0x0010 [0x95, 0xF0] State.reset)).cycles = 4 := by decide

/-- VA2. -/
theorem test_lda_aby_wraps_past_the_top :
    after (placed 0x0010 [0xB9, 0xF0, 0xFF] (regs 0x00 0x00 0x20 0xFF 0x24))
        (fun t => (t.a, t.p, t.pc)) = some (0xB9, 0xA4, 0x0013) := by decide

/-- VA3. -/
theorem test_lda_abx_crosses_a_page :
    after (placed 0x0010 [0xBD, 0xFF, 0x20] (poke [(0x2100, 0x01)] (regs 0x00 0x01 0x00 0xFF 0x24)))
        (fun t => (t.a, t.p, t.pc)) = some (0x01, 0x24, 0x0013) := by decide

/-- VA4. -/
theorem test_ldx_zpy_wraps_in_page_zero :
    after (placed 0x0010 [0xB6, 0xFF] (poke [(0x0001, 0x80)] (regs 0x00 0x00 0x02 0xFF 0x24)))
        (fun t => (t.x, t.p, t.pc)) = some (0x80, 0xA4, 0x0012) := by decide

/-- VA5. -/
theorem test_stx_zpy :
    after (placed 0x0010 [0x96, 0x80] (regs 0x00 0x7E 0x90 0xFF 0x24))
        (fun t => (memRead t 0x0010, t.pc)) = some (0x7E, 0x0012) := by decide

/-- VA6, VA7. -/
theorem test_fetch_wraps_past_the_top :
    after (placed 0xFFFF [0xA9, 0x05] State.reset)
        (fun t => (t.a, t.pc)) = some (0x05, 0x0001) ∧
      after (placed 0xFFFE [0xAD, 0x34, 0x12] (poke [(0x1234, 0x66)] State.reset))
        (fun t => (t.a, t.pc)) = some (0x66, 0x0001) := by decide

/-- VL1. -/
theorem test_lda_abs_keeps_the_other_flags :
    after (placed 0x0010 [0xAD, 0x34, 0x12] (poke [(0x1234, 0x7F)] (regs 0x00 0x00 0x00 0xFF 0xFF)))
        (fun t => (t.a, t.p, t.pc)) = some (0x7F, 0x7D, 0x0013) := by decide

/-- S7. -/
theorem test_lda_imm_negative :
    after (placed 0x0000 [0xA9, 0x80] State.reset)
        (fun t => (t.a, t.p, t.pc)) = some (0x80, 0xA4, 0x0002) := by decide

/-- VL3. -/
theorem test_lda_zpx :
    after (placed 0x0010 [0xB5, 0x40] (poke [(0x0043, 0xFE)] (regs 0x00 0x03 0x00 0xFF 0x24)))
        (fun t => (t.a, t.p)) = some (0xFE, 0xA4) := by decide

/-- S8. -/
theorem test_ldx_imm_zero :
    after (placed 0x0000 [0xA2, 0x00] State.reset)
        (fun t => (t.x, t.p, t.pc)) = some (0x00, 0x26, 0x0002) := by decide

/-- VL4. -/
theorem test_ldx_aby :
    after (placed 0x0010 [0xBE, 0xFF, 0x0F] (regs 0x00 0x07 0x01 0xFF 0x24))
        (fun t => (t.x, t.p)) = some (0x00, 0x26) := by decide

/-- VL2. -/
theorem test_ldy_imm_zero :
    after (placed 0x0010 [0xA0, 0x00] (regs 0x00 0x00 0x05 0xFF 0xA4))
        (fun t => (t.y, t.p, t.pc)) = some (0x00, 0x26, 0x0012) := by decide

/-- VL5. -/
theorem test_ldy_abx :
    after (placed 0x0010 [0xBC, 0x00, 0x00] (poke [(0x00FF, 0x80)] (regs 0x00 0xFF 0x00 0xFF 0x24)))
        (fun t => (t.y, t.p)) = some (0x80, 0xA4) := by decide

/-- VL6. -/
theorem test_sty_abs_at_the_top :
    after (placed 0x0010 [0x8C, 0xFF, 0xFF] (regs 0x00 0x00 0xAB 0xFF 0x27))
        (fun t => (memRead t 0xFFFF, t.p, t.pc)) = some (0xAB, 0x27, 0x0013) := by decide

/-- VL7. -/
theorem test_sta_abx_wraps_and_writes_no_flag :
    after (placed 0x0010 [0x9D, 0xF8, 0xFF] (poke [(0x0008, 0x55)] (regs 0x00 0x10 0x00 0xFF 0xA4)))
        (fun t => (memRead t 0x0008, t.p)) = some (0x00, 0xA4) := by decide

/-- VL8. -/
theorem test_sta_aby :
    after (placed 0x0010 [0x99, 0xFE, 0x01] (regs 0x3C 0x00 0x04 0xFF 0x24))
        (fun t => memRead t 0x0202) = some 0x3C := by decide

/-- VL9. -/
theorem test_stx_zp_is_not_indexed :
    after (placed 0x0010 [0x86, 0xFF] (regs 0x00 0x42 0x01 0xFF 0x24))
        (fun t => (memRead t 0x00FF, memRead t 0x0000)) = some (0x42, 0x00) := by decide

/-- VL10. -/
theorem test_sty_zpx_wraps :
    after (placed 0x0010 [0x94, 0xFF] (regs 0x00 0x02 0x77 0xFF 0x24))
        (fun t => (memRead t 0x0001, memRead t 0x0101)) = some (0x77, 0x00) := by decide

/-- VL11, S6 step 2. -/
theorem test_sta_abs_may_write_the_stack_page :
    after (placed 0x0010 [0x8D, 0xFF, 0x01] (regs 0x11 0x00 0x00 0xFF 0x24))
        (fun t => (memRead t 0x01FF, t.sp)) = some (0x11, 0xFF) ∧
      after (placed 0x0002 [0x8D, 0x02, 0x00] (regs 0x42 0x00 0x00 0xFF 0x24))
        (fun t => (memRead t 0x0002, memRead t 0x0200, t.pc)) = some (0x42, 0x00, 0x0005) := by decide

/-! ADC and AND. -/

/-- Part 2 V-ALU, the V reading of the ADC table: (A, m, P before) gives (A, P after). -/
theorem test_adc_table :
    ([(0x00, 0x00, 0x24), (0x00, 0x00, 0x64), (0x01, 0x01, 0x24), (0x01, 0x01, 0x64), (0x3F, 0x01, 0x24),
      (0x3F, 0x01, 0x64), (0x50, 0x50, 0x24), (0x50, 0x50, 0x64), (0x7F, 0x01, 0x24), (0x7F, 0x01, 0x64),
      (0x80, 0x80, 0x24), (0x80, 0x80, 0x64), (0xFF, 0x01, 0x24), (0xFF, 0x01, 0x64), (0xFF, 0x00, 0x25),
      (0xFF, 0x00, 0x65), (0xFF, 0xFF, 0x25), (0xFF, 0xFF, 0x65), (0xC0, 0x40, 0x24), (0xC0, 0x40, 0x64),
      (0x40, 0x40, 0x25), (0x40, 0x40, 0x65), (0x0F, 0x30, 0x25), (0x0F, 0x30, 0x65), (0xBF, 0x00, 0x25),
      (0xBF, 0x00, 0x65)].map
      fun c : Byte × Byte × Byte =>
        after (placed 0x0010 [0x69, c.2.1] (regs c.1 0 0 0xFF c.2.2)) (fun t => (t.a, t.p))) =
      ([(0x00, 0x26), (0x00, 0x26), (0x02, 0x24), (0x02, 0x24), (0x40, 0x64), (0x40, 0x64), (0xA0, 0xA4),
       (0xA0, 0xA4), (0x80, 0xA4), (0x80, 0xA4), (0x00, 0x27), (0x00, 0x27), (0x00, 0x27), (0x00, 0x27),
       (0x00, 0x27), (0x00, 0x27), (0xFF, 0xE5), (0xFF, 0xE5), (0x00, 0x27), (0x00, 0x27), (0x81, 0xA4),
       (0x81, 0xA4), (0x40, 0x64), (0x40, 0x64), (0xC0, 0xE4), (0xC0, 0xE4)].map some) := by decide

/-- The N reading of R110, which the decided parameter leaves unused: V keeps its old value. -/
theorem test_adc_status_other_reading :
    adcStatus .n 0x040 0x24 = 0x24 ∧ adcStatus .n 0x0A0 0x64 = 0xE4 ∧ adcStatus .n 0x1FF 0x25 = 0xA5 := by decide

/-- VU1, VU2. -/
theorem test_adc_ignores_decimal_mode :
    after (placed 0x0010 [0x69, 0x15] (regs 0x10 0x00 0x00 0xFF 0x2C))
        (fun t => (t.a, t.p)) = some (0x25, 0x2C) ∧
      after (placed 0x0010 [0x75, 0x10] (poke [(0x0012, 0x02)] (regs 0x01 0x02 0x00 0xFF 0x25)))
        (fun t => (t.a, t.p)) = some (0x04, 0x24) := by decide

/-- VU3, VU6. -/
theorem test_and_imm :
    after (placed 0x0010 [0x29, 0x0F] (regs 0xF0 0x00 0x00 0xFF 0x24))
        (fun t => (t.a, t.p)) = some (0x00, 0x26) ∧
      after (placed 0x0010 [0x29, 0x0F] (regs 0xF3 0x00 0x00 0xFF 0xE5))
        (fun t => (t.a, t.p)) = some (0x03, 0x65) := by decide

/-- VU4, VU5. -/
theorem test_and_memory :
    after (placed 0x0010 [0x25, 0x40] (poke [(0x0040, 0xC1)] (regs 0x81 0x00 0x00 0xFF 0x24)))
        (fun t => (t.a, t.p)) = some (0x81, 0xA4) ∧
      after (placed 0x0010 [0x39, 0x00, 0x30] (poke [(0x3005, 0xFF)] (regs 0x55 0x00 0x05 0xFF 0x24)))
        (fun t => (t.a, t.p)) = some (0x55, 0x24) := by decide

/-! Transfers, increments, decrements. -/

/-- VT1, VT2. -/
theorem test_transfers_from_a :
    after (placed 0x0010 [0xAA] (regs 0x80 0x01 0x00 0xFF 0x24))
        (fun t => (t.x, t.a, t.p, t.pc)) = some (0x80, 0x80, 0xA4, 0x0011) ∧
      after (placed 0x0010 [0xA8] (regs 0x00 0x00 0x01 0xFF 0x24))
        (fun t => (t.y, t.p)) = some (0x00, 0x26) := by decide

/-- VT3, VT4. -/
theorem test_transfers_to_a :
    after (placed 0x0010 [0x8A] (regs 0x00 0x41 0x00 0xFF 0x24))
        (fun t => (t.a, t.p)) = some (0x41, 0x24) ∧
      after (placed 0x0010 [0x98] (regs 0x00 0x00 0xFE 0xFF 0x27))
        (fun t => (t.a, t.p)) = some (0xFE, 0xA5) := by decide

/-- VT5. -/
theorem test_inx_wraps_without_carry :
    after (placed 0x0010 [0xE8] (regs 0x00 0xFF 0x00 0xFF 0xE5))
        (fun t => (t.x, t.p)) = some (0x00, 0x67) := by decide

/-- VT6, VT7, VT8. -/
theorem test_dex_iny_dey :
    after (placed 0x0010 [0xCA] (regs 0x00 0x00 0x00 0xFF 0x24))
        (fun t => (t.x, t.p)) = some (0xFF, 0xA4) ∧
      after (placed 0x0010 [0xC8] (regs 0x00 0x00 0x7F 0xFF 0x24))
        (fun t => (t.y, t.p)) = some (0x80, 0xA4) ∧
      after (placed 0x0010 [0x88] (regs 0x00 0x00 0x01 0xFF 0xA4))
        (fun t => (t.y, t.p)) = some (0x00, 0x26) := by decide

/-! Control transfer, stack and BRK. -/

/-- VC1, VC2. -/
theorem test_jmp :
    after (placed 0x0400 [0x4C, 0x34, 0x12] State.reset)
        (fun t => (t.pc, t.sp, t.p)) = some (0x1234, 0xFF, 0x24) ∧
      after (placed 0xFFFE [0x4C, 0x34, 0x12] State.reset)
        (fun t => t.pc) = some 0x1234 := by decide

/-- VC4, VC5. -/
theorem test_jsr :
    after (placed 0x0200 [0x20, 0x00, 0x03] State.reset)
        (fun t => (memRead t 0x01FF, memRead t 0x01FE, t.sp, t.pc)) = some (0x02, 0x02, 0xFD, 0x0300) ∧
      after (placed 0x0010 [0x20, 0x00, 0x03] (regs 0x00 0x00 0x00 0x00 0x24))
        (fun t => (memRead t 0x0100, memRead t 0x01FF, t.sp, t.pc)) = some (0x00, 0x12, 0xFE, 0x0300) := by decide

/-- VC6, VC7. -/
theorem test_jsr_at_the_top :
    after (placed 0xFFFD [0x20, 0x34, 0x12] State.reset)
        (fun t => (memRead t 0x01FF, memRead t 0x01FE, t.sp, t.pc)) = some (0xFF, 0xFF, 0xFD, 0x1234) ∧
      after (placed 0xFFFE [0x20, 0x34, 0x12] State.reset)
        (fun t => (memRead t 0x01FF, memRead t 0x01FE, t.sp, t.pc)) = some (0x00, 0x00, 0xFD, 0x1234) := by decide

/-- VC8, VC9. -/
theorem test_rts :
    after (placed 0x0010 [0x60] (poke [(0x01FE, 0x02), (0x01FF, 0x02)] (regs 0x00 0x00 0x00 0xFD 0x24)))
        (fun t => (t.pc, t.sp)) = some (0x0203, 0xFF) ∧
      after (placed 0x0010 [0x60] (poke [(0x01FE, 0xFF), (0x01FF, 0xFF)] (regs 0x00 0x00 0x00 0xFD 0x24)))
        (fun t => (t.pc, t.sp)) = some (0x0000, 0xFF) := by decide

/-- VC10. -/
theorem test_rts_wraps_the_stack_pointer :
    after (placed 0x0010 [0x60] (poke [(0x0100, 0x33), (0x0101, 0x44)] (regs 0x00 0x00 0x00 0xFF 0x24)))
        (fun t => (t.pc, t.sp)) = some (0x4434, 0x01) := by decide

/-- VS1, VS2. -/
theorem test_pha :
    after (placed 0x0010 [0x48] (regs 0x5A 0x00 0x00 0xFF 0x24))
        (fun t => (memRead t 0x01FF, t.sp, t.p)) = some (0x5A, 0xFE, 0x24) ∧
      after (placed 0x0010 [0x48] (regs 0x5A 0x00 0x00 0x00 0x24))
        (fun t => (memRead t 0x0100, t.sp)) = some (0x5A, 0xFF) := by decide

/-- VS3, VS4. -/
theorem test_pla :
    after (placed 0x0010 [0x68] (poke [(0x01FF, 0x80)] (regs 0x00 0x00 0x00 0xFE 0x24)))
        (fun t => (t.a, t.p, t.sp, memRead t 0x01FF)) = some (0x80, 0xA4, 0xFF, 0x80) ∧
      after (placed 0x0010 [0x68] (regs 0x09 0x00 0x00 0xFF 0x24))
        (fun t => (t.a, t.p, t.sp)) = some (0x00, 0x26, 0x00) := by decide

/-- VS5, VS9. -/
theorem test_brk :
    after (placed 0x0005 [0x00] State.reset)
        (fun t => ([memRead t 0x01FF, memRead t 0x01FE, memRead t 0x01FD, t.sp, t.p], t.pc)) = some ([0x00, 0x07, 0x34, 0xFC, 0x24], 0x0000) ∧
      after (placed 0x0010 [0x00] (regs 0x00 0x00 0x00 0xFF 0x20))
        (fun t => ([memRead t 0x01FF, memRead t 0x01FE, memRead t 0x01FD, t.sp, t.p], t.pc)) = some ([0x00, 0x12, 0x30, 0xFC, 0x24], 0x0000) := by decide

/-- VS6. -/
theorem test_brk_wraps_the_stack_and_takes_the_vector :
    after (placed 0x0010 [0x00] (poke [(0xFFFE, 0x34), (0xFFFF, 0x12)] (regs 0x00 0x00 0x00 0x01 0xC3)))
        (fun t => ([memRead t 0x0101, memRead t 0x0100, memRead t 0x01FF, t.sp, t.p], t.pc)) = some ([0x00, 0x12, 0xF3, 0xFE, 0xC7], 0x1234) := by decide

/-- VS7, VS8. -/
theorem test_brk_at_its_own_vector :
    after (placed 0xFFFF [0x00] State.reset)
        (fun t => ([memRead t 0x01FF, memRead t 0x01FE, memRead t 0x01FD, t.sp, t.p], t.pc)) = some ([0x00, 0x01, 0x34, 0xFC, 0x24], 0x0000) ∧
      after (placed 0xFFFE [0x00] State.reset)
        (fun t => ([memRead t 0x01FF, memRead t 0x01FE, memRead t 0x01FD, t.sp, t.p], t.pc)) = some ([0x00, 0x00, 0x34, 0xFC, 0x24], 0x0000) := by decide

/-! Unknown opcodes, disassembly and the host's transactions. -/

/-- VX1, VX2, S9. -/
theorem test_unknown_opcode_changes_nothing :
    ([0x02, 0xEA, 0x40, 0x6C, 0xFF].map fun op : Byte => after (placed 0x0010 [op] (regs 1 2 3 4 0xFF)) id) =
      ([0x02, 0xEA, 0x40, 0x6C, 0xFF].map fun op : Byte => some (placed 0x0010 [op] (regs 1 2 3 4 0xFF))) ∧
      stepReturn (placed 0x0010 [0x02] State.reset) = ⟨.unknownOpcode 0x02, 0⟩ := by decide

/-- VX6. -/
theorem test_stall_ends_by_a_host_write :
    after (memWrite (placed 0x0010 [0x02] (regs 0x00 0x01 0x00 0xFF 0x24)) 0x0010 0xE8)
        (fun t => t.x) = some 0x02 := by decide

/-- VD1, VD4, VD5. -/
theorem test_disassembly_byte_operands :
    (fun d => (d.bytes, d.mnemonic, d.operand)) (disassemble (poke [(0x0000, 0xA9), (0x0001, 0x42)] State.reset) 0x0000) =
        ([0xA9, 0x42], "LDA", "#$42") ∧
      (fun d => (d.bytes, d.mnemonic, d.operand)) (disassemble (poke [(0x0010, 0xB5), (0x0011, 0xF0)] State.reset) 0x0010) =
        ([0xB5, 0xF0], "LDA", "$F0,X") ∧
      (fun d => (d.bytes, d.mnemonic, d.operand)) (disassemble (poke [(0x0010, 0x96), (0x0011, 0x10)] State.reset) 0x0010) =
        ([0x96, 0x10], "STX", "$10,Y") := by decide

/-- VD2, VD6, VD7. -/
theorem test_disassembly_word_operands :
    (fun d => (d.bytes, d.mnemonic, d.operand)) (disassemble (poke [(0x0002, 0x8D), (0x0003, 0x02)] State.reset) 0x0002) =
        ([0x8D, 0x02, 0x00], "STA", "$0002") ∧
      (fun d => (d.bytes, d.mnemonic, d.operand)) (disassemble (poke [(0x0010, 0xBE), (0x0011, 0x34), (0x0012, 0x12)] State.reset) 0x0010) =
        ([0xBE, 0x34, 0x12], "LDX", "$1234,Y") ∧
      (fun d => (d.bytes, d.mnemonic, d.operand)) (disassemble (poke [(0x0010, 0x9D), (0x0011, 0xAB), (0x0012, 0xCD)] State.reset) 0x0010) =
        ([0x9D, 0xAB, 0xCD], "STA", "$CDAB,X") := by decide

/-- VD3, VD8, VD12. -/
theorem test_disassembly_edges :
    (fun d => (d.bytes, d.mnemonic, d.operand)) (disassemble (poke [] State.reset) 0x0005) =
        ([0x00], "BRK", "") ∧
      (fun d => (d.bytes, d.mnemonic, d.operand)) (disassemble (poke [(0xFFFF, 0xAD), (0x0000, 0x34), (0x0001, 0x12)] State.reset) 0xFFFF) =
        ([0xAD, 0x34, 0x12], "LDA", "$1234") ∧
      (fun d => (d.bytes, d.mnemonic, d.operand)) (disassemble (poke [(0x0010, 0x60)] State.reset) 0x0010) =
        ([0x60], "RTS", "") := by decide

/-- VD9, VD10. -/
theorem test_disassembly_of_unknown_bytes :
    disassemble (poke [(0x0010, 0xFF)] State.reset) 0x0010 =
        ⟨0x0010, [0xFF], "???", "", "Unknown opcode"⟩ ∧
      disassemble (poke [(0x0000, 0xA9), (0x0001, 0x42)] State.reset) 0x0001 =
        ⟨0x0001, [0x42], "???", "", "Unknown opcode"⟩ := by decide

/-- S4, VH2. -/
theorem test_reset_transaction :
    afterT .reset (poke [(0x0150, 0x99), (0x0200, 0x77)] ⟨0x12, 0x34, 0x56, 0x80, 0x4321, 0xFF, []⟩)
      (fun t _ => t) = some ⟨0, 0, 0, 0xFF, 0x4321, 0x24, [(0x0200, 0x77)]⟩ := by
  decide +kernel

/-- VH3, VH4. -/
theorem test_load_program :
    afterT (.loadProgram [0x11, 0x22, 0x33] 0xFFFE) State.reset (fun t _ => t.mem) =
        some [(0xFFFE, 0x11), (0xFFFF, 0x22)] ∧
      afterT (.loadProgram [0xAA, 0xBB] 0x01FF) State.reset (fun t _ => t.mem) =
        some [(0x01FF, 0xAA), (0x0200, 0xBB)] ∧
      transact (.loadProgram [0xAA] 0x10000) State.reset matches .refused (.loadOriginOutOfRange 0x10000) := by decide

/-- VH5, VH6. -/
theorem test_dump_is_clipped :
    afterT (.dump 0xFFFE 5) (poke [(0xFFFE, 1), (0xFFFF, 2)] State.reset) (fun _ r => r) = some (.bytes [1, 2]) ∧
      afterT (.dump 0x10000 1) State.reset (fun _ r => r) = some (.bytes []) := by decide

/-- VH7. -/
theorem test_clear :
    afterT .clear (poke [(0x0200, 1)] (regs 1 2 3 4 5)) (fun t _ => t) = some (regs 1 2 3 4 5) := by decide

/-- VH8, VH9. -/
theorem test_host_register_writes :
    afterT (.writeReg .a 0x1FF) State.reset (fun t _ => t.a) = some 0xFF ∧
      afterT (.writeReg .p 0x00) State.reset (fun t _ => t.p) = some 0x00 ∧
      afterT (.writeReg .pc 0x12345) State.reset (fun t _ => t.pc) = some 0x2345 := by decide

/-- Storing the byte an unlisted address reads as removes the entry (log entry 18). -/
theorem test_memory_stays_canonical :
    (poke [(0x0300, 1), (0x0100, 2), (0x0200, 3), (0x0200, 4)] State.reset).mem = [(0x0100, 2), (0x0200, 4), (0x0300, 1)] ∧
      (poke [(0x0300, 1), (0x0100, 2), (0x0300, 0)] State.reset).mem = [(0x0100, 2)] := by decide

/-! Witnesses: a concrete state and operands meeting every hypothesis of a statement, named after it. -/

theorem test_witness_EveryDecodedInstructionHasOnlyItsOwnBytes :
    decode [0x8D, 0x34, 0x12, 0xFF] = .ok (.staAbs 0x1234) [0xFF] := by decide

theorem test_witness_LengthFollowsTheModeOfTheFirstByte :
    decode [0xB5, 0x01] = .ok (.ldaZpx 0x01) [] ∧ decode [0xB5, 0x02, 0x03] = .ok (.ldaZpx 0x02) [0x03] := by decide

/-- One state for each clause: STA indexed absolute, JMP, PHA, JSR, RTS, BRK, PLA, IMM, IMP, ZP, the rest. -/
theorem test_witness_NominalCyclesAreTheBaseCounts :
    (([[0x9D, 0x34, 0x12], [0x99, 0x34, 0x12], [0x4C, 0x34, 0x12], [0x48], [0x20, 0x34, 0x12], [0x60], [0x00], [0x68],
        [0xA9, 0x42], [0xAA], [0x85, 0x42], [0x8D, 0x34, 0x12]].map fun bs : List Byte =>
      (decode (bytesFrom (placed 0xFFFF bs State.reset) 0xFFFF 3)).instr?) =
      [.staAbx 0x1234, .staAby 0x1234, .jmp 0x1234, .pha, .jsr 0x1234, .rts, .brk, .pla, .ldaImm 0x42, .tax,
        .staZp 0x42, .staAbs 0x1234].map some) ∧
      (([[0x9D, 0x34, 0x12], [0x99, 0x34, 0x12], [0x4C, 0x34, 0x12], [0x48], [0x20, 0x34, 0x12], [0x60], [0x00], [0x68],
        [0xA9, 0x42], [0xAA], [0x85, 0x42], [0x8D, 0x34, 0x12]].map fun bs : List Byte =>
      (stepReturn (placed 0xFFFF bs State.reset)).cycles) = [5, 5, 3, 3, 6, 6, 7, 4, 2, 2, 3, 4]) := by decide

theorem test_witness_ByteAccessesReduceTheAddressAndReadTheLastWrite :
    0x10000 % 65536 = 0x0000 % 65536 ∧ memRead (memWrite State.reset 0x10000 0x5A) 0x0000 = 0x5A := by decide

theorem test_witness_JmpSetsPcToItsOperandWord :
    opcodeAtPc (placed 0xFFFF [0x4C, 0x34, 0x12] State.reset) = 0x4C := by decide

/-- S3: JSR at 0x0200 and at 0xFFFE, an RTS at the target. -/
theorem test_witness_RtsAfterJsrReturnsPastTheJsr :
    decode (bytesFrom (placed 0x0200 [0x20, 0x00, 0x03] (poke [(0x0300, 0x60)] State.reset)) 0x0200 3) =
        .ok (.jsr 0x0300) [] ∧
      after (placed 0x0200 [0x20, 0x00, 0x03] (poke [(0x0300, 0x60)] State.reset)) opcodeAtPc = some 0x60 ∧
      decode (bytesFrom (placed 0xFFFE [0x20, 0x34, 0x12] (poke [(0x1234, 0x60)] State.reset)) 0xFFFE 3) =
        .ok (.jsr 0x1234) [] ∧
      after (placed 0xFFFE [0x20, 0x34, 0x12] (poke [(0x1234, 0x60)] State.reset)) opcodeAtPc = some 0x60 := by decide

theorem test_witness_StepRunsTheDecodedInstruction :
    decode (bytesFrom (placed 0xFFFE [0xAD, 0x34, 0x12] State.reset) 0xFFFE 3) = .ok (.ldaAbs 0x1234) [] := by decide

theorem test_witness_AnUnpopulatedByteStallsTheRunForGood : Stalled (placed 0x0010 [0x02] State.reset) := by
  unfold Stalled; decide

theorem test_witness_NoStepEverFaults :
    populated (opcodeAtPc State.reset) = true ∧ populated (opcodeAtPc (placed 0x0010 [0xFF] State.reset)) = false := by
  decide

theorem test_witness_EveryStepKeepsTheMemoryCanonical :
    Canonical (placed 0x0010 [0x48] (regs 0x5A 0 0 0xFF 0x24)) ∧
      ∃ t, step (placed 0x0010 [0x48] (regs 0x5A 0 0 0xFF 0x24)) = .next t :=
  ⟨by unfold Canonical; decide, _, rfl⟩

theorem test_witness_EveryHostTransactionKeepsTheMemoryCanonical :
    Canonical (poke [(0x0200, 0x01)] State.reset) ∧
      ∃ t, transact (.writeByte 0x0200 0x00) (poke [(0x0200, 0x01)] State.reset) = .next (t, .nothing) :=
  ⟨by unfold Canonical; decide, _, rfl⟩

theorem test_witness_OnlyStackInstructionsMoveTheStackPointer :
    ∃ t, step (placed 0x0010 [0x60] State.reset) = .next t ∧ t.sp ≠ (placed 0x0010 [0x60] State.reset).sp :=
  ⟨_, rfl, by decide⟩

/-- A store, then a push, each changing a byte. -/
theorem test_witness_OnlyStoresAndPushesWriteMemory :
    (∃ t, step (placed 0x0010 [0x85, 0x80] (regs 1 0 0 0xFF 0x24)) = .next t ∧
        memRead t 0x0080 ≠ memRead (placed 0x0010 [0x85, 0x80] (regs 1 0 0 0xFF 0x24)) 0x0080) ∧
      ∃ t, step (placed 0x0010 [0x48] (regs 1 0 0 0x00 0x24)) = .next t ∧
        memRead t 0x0100 ≠ memRead (placed 0x0010 [0x48] (regs 1 0 0 0x00 0x24)) 0x0100 :=
  ⟨⟨_, rfl, by decide⟩, ⟨_, rfl, by decide⟩⟩

/-- ADC changes C, V and Z; BRK changes I; PLA changes N. -/
theorem test_witness_FlagsChangeOnlyWhereTheSummaryTableSays :
    (∃ t, step (placed 0x0010 [0x69, 0xFF] (regs 0xFF 0 0 0xFF 0x25)) = .next t ∧
        t.flag .v ≠ (placed 0x0010 [0x69, 0xFF] (regs 0xFF 0 0 0xFF 0x25)).flag .v) ∧
      (∃ t, step (placed 0x0010 [0x69, 0x01] (regs 0xFF 0 0 0xFF 0x24)) = .next t ∧
        t.flag .c ≠ (placed 0x0010 [0x69, 0x01] (regs 0xFF 0 0 0xFF 0x24)).flag .c ∧
        t.flag .z ≠ (placed 0x0010 [0x69, 0x01] (regs 0xFF 0 0 0xFF 0x24)).flag .z) ∧
      (∃ t, step (placed 0x0010 [0x00] (regs 0 0 0 0xFF 0x20)) = .next t ∧
        t.flag .i ≠ (placed 0x0010 [0x00] (regs 0 0 0 0xFF 0x20)).flag .i) ∧
      ∃ t, step (placed 0x0010 [0x68] (poke [(0x0100, 0x80)] State.reset)) = .next t ∧
        t.flag .n ≠ (placed 0x0010 [0x68] (poke [(0x0100, 0x80)] State.reset)).flag .n :=
  ⟨⟨_, rfl, by decide⟩, ⟨_, rfl, by decide⟩, ⟨_, rfl, by decide⟩, ⟨_, rfl, by decide⟩⟩

theorem test_witness_IndexAndAccumulatorWritersAreTheListedOnes :
    (∃ t, step (placed 0x0010 [0xA9, 0x01] State.reset) = .next t ∧
        t.a ≠ (placed 0x0010 [0xA9, 0x01] State.reset).a) ∧
      (∃ t, step (placed 0x0010 [0xE8] State.reset) = .next t ∧ t.x ≠ (placed 0x0010 [0xE8] State.reset).x) ∧
      ∃ t, step (placed 0x0010 [0x88] State.reset) = .next t ∧ t.y ≠ (placed 0x0010 [0x88] State.reset).y :=
  ⟨⟨_, rfl, by decide⟩, ⟨_, rfl, by decide⟩, ⟨_, rfl, by decide⟩⟩

theorem test_witness_SequentialAdvanceUnlessAControlTransfer :
    decode (bytesFrom (placed 0xFFFF [0xA9, 0x05] State.reset) 0xFFFF 3) = .ok (.ldaImm 0x05) [0x00] ∧
      (Instr.ldaImm 0x05).mnemonic ∉ [Mnemonic.jmp, .jsr, .rts, .brk] := by decide

theorem test_witness_UnusedStatusBitsInfluenceOnlyThemselvesAndTheCopyBrkPushes :
    Machine.Flag.d ∈ [Machine.Flag.i, .d, .b, .bit5] ∧ Instr.adcImm 0x15 ≠ .brk := by decide

/-- One carry in two status bytes, and an instruction for each clause. -/
theorem test_witness_OfTheStatusOnlyCarryInfluencesTheRestButForTheCopyBrkPushes :
    getFlag .c 0xDB = (regs 0x10 0 0 0xFF 0x25).flag .c ∧ Instr.adcImm 0x15 ≠ .brk ∧ Instr.brk = .brk := by decide

/-- One step of a run at an ADC: no BRK stands at PC in its first state. -/
theorem test_witness_RunsThatDifferOnlyInPStayTogetherUntilABreak :
    getFlag .c 0xDB = (placed 0x0010 [0x69, 0x15] (regs 0x10 0 0 0xFF 0x25)).flag .c ∧
      ∀ k, k < 1 → ∀ v, Sys2Proof.core.run k (placed 0x0010 [0x69, 0x15] (regs 0x10 0 0 0xFF 0x25)) = .next v →
        ¬ MnemonicAtPc [.brk] v := by
  refine ⟨by decide, fun k hk v hv => ?_⟩
  obtain rfl : k = 0 := by omega
  cases hv
  rintro ⟨e, he, hm⟩
  cases he
  exact absurd hm (by decide)

/-- A store into the next instruction's opcode and one into its operand byte, each making it decodable. -/
theorem test_witness_AStoreIsSeenByTheNextFetch :
    after (placed 0x0010 [0x85, 0x12, 0xFF] (regs 0xE8 0 0 0xFF 0x24)) (fun t => decode (bytesFrom t 0x0012 3)) =
        some (.ok .inx [0x00, 0x00]) ∧
      after (placed 0x0010 [0x85, 0x13, 0xA9, 0xFF] (regs 0xE8 0 0 0xFF 0x24)) (fun t => decode (bytesFrom t 0x0012 3)) =
        some (.ok (.ldaImm 0xE8) [0x00]) := by decide

theorem test_witness_ResetTwiceIsResetOnce : Canonical (poke [(0x0200, 0x77), (0x0150, 0x99)] State.reset) := by
  unfold Canonical; decide

/-- Both ranges at their boundary, the second clause's bytes at 0xFFFF and dropped at 0x10000, the third's
address 0x0000 after an overrun. -/
theorem test_witness_LoadProgramCopiesUpToTheTopAndDropsTheRest :
    0xFFFF ≤ 0xFFFF ∧ 0xFFFF < 0x10000 ∧ ([0x11, 0x22] : List Byte)[0]? = some 0x11 ∧ 0xFFFF + 0 ≤ 0xFFFF ∧
      0x0000 ≤ 0xFFFF ∧ 0x0000 < 0xFFFF ∧
      afterT (.loadProgram [0x11, 0x22] 0xFFFF) State.reset (fun t _ => (memRead t 0xFFFF, memRead t 0x0000)) =
        some (0x11, 0x00) := by decide

/-- An index inside the list, and each way to an empty one. -/
theorem test_witness_DumpIsTheClippedSlice :
    0 < (dump 0xFFFF 5 State.reset).length ∧ 0xFFFF < 0x10000 ∧ dump 0x10000 5 State.reset = [] ∧
      dump 0x0200 0 State.reset = [] := by decide

theorem test_witness_DisassemblingAnUnpopulatedByteGivesTheSentinel :
    populated (memRead (poke [(0x0010, 0xFF)] State.reset) 0x0010) = false := by decide

theorem test_witness_DisassemblyShowsTheDecodedInstruction :
    decode (bytesFrom (poke [(0xFFFF, 0xAD), (0x0000, 0x34), (0x0001, 0x12)] State.reset) 0xFFFF 3) =
      .ok (.ldaAbs 0x1234) [] := by decide

/-- Two states with one memory and different registers; both address ranges at their boundary. -/
theorem test_witness_DisassemblyReadsMemoryOnlyAndChangesNothing :
    (regs 1 2 3 4 5).mem = State.reset.mem ∧ regs 1 2 3 4 5 ≠ State.reset ∧ 0xFFFF ≤ 0xFFFF ∧ 0xFFFF < 0x10000 ∧
      afterT (.disassemble 0xFFFF) State.reset (fun t _ => t) = some State.reset ∧
      afterT (.disassemble 0x10000) State.reset (fun t _ => t) = none := by decide

end Sys2Proof.Tests
end

section
/-! The status register's access rules (10_state.md R26), settled from the laws of the flags. -/

namespace Sys2Proof.Machine

theorem setFlag_true (f : Flag) (p : Byte) : setFlag f true p = p ||| f.mask := if_pos rfl

theorem setFlag_false (f : Flag) (p : Byte) : setFlag f false p = p &&& ~~~f.mask := if_neg Bool.false_ne_true

theorem getFlag_eq_decide_and_mask_ne_zero (f : Flag) (p : Byte) :
    getFlag f p = decide (p &&& f.mask ≠ 0) := by
  simp only [getFlag, bne, beq_eq_decide, ne_eq, decide_not]

/-- Settles O12: each write is its mask operation, a read is the mask test, and `getFlag_setFlag` says that a
write reaches its own flag only. -/
theorem flagWritesChangeOneBitByItsMask : Obligations.FlagWritesChangeOneBitByItsMask := by
  intro f g on p
  exact ⟨setFlag_true f p, setFlag_false f p, getFlag_eq_decide_and_mask_ne_zero f p, getFlag_setFlag f g on p⟩

end Sys2Proof.Machine
end

section
/-! Byte access and Clear (20_memory.md R41, R42, R53), settled from the read-after-write law. -/

namespace Sys2Proof.Machine

/-- No register lies in the store: replacing it leaves what the host reads of each. -/
@[simp] theorem readReg_setMem (r : Reg) (s : State) (m : Memory) : readReg r (s.setMem m) = readReg r s := by
  cases r <;> rfl

@[simp] theorem readReg_memWrite (r : Reg) (s : State) (addr : Nat) (v : Byte) :
    readReg r (memWrite s addr v) = readReg r s := readReg_setMem r s _

theorem memWrite_maskAddr (s : State) (addr : Nat) (v : Byte) : memWrite s (maskAddr addr) v = memWrite s addr v := by
  simp only [memWrite, maskAddr, Nat.mod_mod]

theorem memRead_memWrite_same {k addr : Nat} (h : maskAddr k = maskAddr addr) (s : State) (v : Byte) :
    memRead (memWrite s addr v) k = v := by
  rw [memRead_memWrite, if_pos h]

/-- The frame of a byte write. -/
theorem sameMemoryExcept_memWrite (s : State) (addr : Nat) (v : Byte) :
    SameMemoryExcept [addr] s (memWrite s addr v) := by
  intro k hk
  rw [memRead_memWrite, if_neg (by simpa using hk)]

/-- A host value is reduced mod 256 (R42): what exceeds the byte is dropped. -/
theorem byte_ofNat_toNat_add_mul (v : Byte) (k : Nat) : BitVec.ofNat 8 (v.toNat + 256 * k) = v := by
  apply BitVec.eq_of_toNat_eq
  rw [BitVec.toNat_ofNat, Nat.add_mul_mod_self_left, Nat.mod_eq_of_lt v.isLt]

/-- Settles O8: accesses reduce their address, and a read gives the last write there. -/
theorem byteAccessesReduceTheAddressAndReadTheLastWrite :
    Obligations.ByteAccessesReduceTheAddressAndReadTheLastWrite := by
  intro s addr k v
  have hHostWrite : transact (.writeByte addr (v.toNat + 256 * k)) s = .next (memWrite s addr v, .nothing) := by
    simp only [transact, byte_ofNat_toNat_add_mul]
  exact ⟨(memRead_maskAddr s addr).symm, (memWrite_maskAddr s addr v).symm, memRead_memWrite_same rfl s v,
    sameMemoryExcept_memWrite s addr v, fun r _ => readReg_memWrite r s addr v,
    fun h => memRead_memWrite_same h s v, hHostWrite, rfl⟩

/-- After Clear nothing is listed, and an unlisted byte reads as 0x00 (R53, D9). -/
theorem memRead_clearMemory (s : State) (k : Nat) : memRead (clearMemory s) k = 0x00 := rfl

/-- Settles O55: Clear replaces the store and nothing else. -/
theorem clearZeroesAllMemoryAndNoRegister : Obligations.ClearZeroesAllMemoryAndNoRegister := by
  intro s
  exact ⟨clearMemory s, rfl, memRead_clearMemory s, fun r _ => readReg_setMem r s []⟩

end Sys2Proof.Machine
end

section
/-! The encoding's lengths and the four source-shown bytes (30_encoding.md R61, R66), settled from what a decoding
that succeeds looks like. -/

namespace Sys2Proof

open Machine

/-- The length of R61 is the number of bytes the encoder writes. -/
@[simp] theorem length_encode (i : Instr) : (encode i).length = i.length := by
  cases i <;> rfl

/-- Decoding succeeds exactly where the first byte has an entry and its operand bytes follow: the instruction is what
the entry's executor makes of them. An operand byte the executor does not take may be any. -/
theorem decode_cons_eq_ok_iff {op : Byte} {bs r : List Byte} {i : Instr} :
    decode (op :: bs) = .ok i r ↔
      ∃ e lo hi, lookup op = some e ∧ i = e.executor.apply lo (wordOf lo hi) ∧
        bs = [lo, hi].take e.executor.operandBytes ++ r := by
  constructor
  · intro h
    cases he : lookup op with
    | none => simp only [decode, he, reduceCtorEq] at h
    | some e =>
      simp only [decode, he] at h
      split at h <;> cases h
      · next hx => exact ⟨e, 0, 0, rfl, by rw [hx]; rfl, by rw [hx]; rfl⟩
      · next f b hx => exact ⟨e, b, 0, rfl, by rw [hx]; rfl, by rw [hx]; rfl⟩
      · next f lo hi hx => exact ⟨e, lo, hi, rfl, by rw [hx]; rfl, by rw [hx]; rfl⟩
  · rintro ⟨e, lo, hi, he, rfl, rfl⟩
    simp only [decode, he]
    cases e.executor <;> rfl

/-- A first byte without an entry ends the decoding, whatever follows (R68). -/
theorem decode_cons_of_lookup_none {op : Byte} (h : lookup op = none) (bs : List Byte) :
    decode (op :: bs) = .unknownOpcode op := by
  simp only [decode, h]

/-- The mode of a decoded instruction is that of its first byte's entry. -/
theorem mode_of_decode_cons {op : Byte} {bs r : List Byte} {i : Instr} (h : decode (op :: bs) = .ok i r) :
    (lookup op).map Entry.mode = some i.mode := by
  obtain ⟨e, lo, hi, he, rfl, -⟩ := decode_cons_eq_ok_iff.mp h
  obtain ⟨-, -, -, hmode⟩ := lookup_executor he lo (wordOf lo hi)
  rw [he, hmode]
  rfl

/-- Settles O5: an encoding has its mode's length, and the mode is that of the first byte's entry. -/
theorem lengthFollowsTheModeOfTheFirstByte : Obligations.LengthFollowsTheModeOfTheFirstByte := by
  constructor
  · intro i
    rw [length_encode, Instr.length]
    cases i.mode <;> rfl
  · intro op bs bs' i j r r' hi hj
    have hmode : i.mode = j.mode :=
      Option.some.inj ((mode_of_decode_cons hi).symm.trans (mode_of_decode_cons hj))
    refine ⟨hmode, ?_⟩
    rw [length_encode, length_encode, Instr.length, Instr.length, hmode]

/-- Settles O1: A9, 8D and 00 have the entries the source shows, and FF has none. -/
theorem sourceShownBytesDecodeAsShown : Obligations.SourceShownBytesDecodeAsShown := by
  intro b lo hi rest
  exact ⟨decode_cons_eq_ok_iff.mpr ⟨_, b, 0, rfl, rfl, rfl⟩, decode_cons_eq_ok_iff.mpr ⟨_, lo, hi, rfl, rfl, rfl⟩,
    decode_cons_eq_ok_iff.mpr ⟨_, 0, 0, rfl, rfl, rfl⟩, decode_cons_of_lookup_none rfl rest⟩

end Sys2Proof
end

section
/-! The operations every instruction shares (40_step_and_addressing.md R83, R84, R93, R95, R96): the register frame
of each register write they make, then what each returns and leaves unchanged. -/

namespace Sys2Proof.Machine

/-! ## Register frames -/

theorem sameRegistersExcept_setPc (s : State) (v : Word) : SameRegistersExcept [.pc] s (s.setPc v) := by
  intro r hr
  cases r with
  | pc => exact absurd (List.mem_singleton_self Reg.pc) hr
  | a | x | y | sp | p => rfl

theorem sameRegistersExcept_setSp (s : State) (v : Byte) : SameRegistersExcept [.sp] s (s.setSp v) := by
  intro r hr
  cases r with
  | sp => exact absurd (List.mem_singleton_self Reg.sp) hr
  | a | x | y | pc | p => rfl

theorem sameRegistersExcept_setP (s : State) (v : Byte) : SameRegistersExcept [.p] s (s.setP v) := by
  intro r hr
  cases r with
  | p => exact absurd (List.mem_singleton_self Reg.p) hr
  | a | x | y | sp | pc => rfl

/-! ## Fetches -/

/-- A word read in numbers, its second address wrapped to 16 bits (20_memory.md R43). -/
theorem readWord_toNat (s : State) (addr : Nat) :
    (readWord s addr).toNat = (memRead s addr).toNat + 256 * (memRead s (maskAddr (addr + 1))).toNat := by
  rw [readWord, wordOf_toNat, memRead_maskAddr]

/-- Settles O10: a fetch is a read at PC and a write of PC, so the frame is that of `setPc`. -/
theorem fetchByteAndFetchWordConsume : Obligations.FetchByteAndFetchWordConsume := by
  intro s
  exact ⟨rfl, BitVec.toNat_add s.pc 1, sameRegistersExcept_setPc s _, memRead_setPc s _,
    readWord_toNat s s.pc.toNat, BitVec.toNat_add s.pc 2, sameRegistersExcept_setPc s _, memRead_setPc s _⟩

/-! ## The NZ update -/

theorem nzFollow_updateNZ (v : Byte) (s : State) : NZFollow v (updateNZ v s) := by
  constructor
  · rw [flag_updateNZ, if_neg (by decide), if_pos rfl, beq_eq_decide]
  · rw [flag_updateNZ, if_pos rfl, bit7_eq]

theorem sameFlagsExcept_updateNZ (v : Byte) (s : State) : SameFlagsExcept [.z, .n] s (updateNZ v s) := by
  intro f hf
  obtain ⟨hz, hn⟩ : f ≠ .z ∧ f ≠ .n := by simpa using hf
  rw [flag_updateNZ, if_neg hn, if_neg hz]

/-- Settles O14: UpdateNZ is a write of P whose flags `flag_updateNZ` gives. -/
theorem updateNzWritesZeroAndNegativeOnly : Obligations.UpdateNzWritesZeroAndNegativeOnly := by
  intro v s
  exact ⟨nzFollow_updateNZ v s, sameFlagsExcept_updateNZ v s, sameRegistersExcept_setP s _, memRead_updateNZ v s⟩

/-! ## The stack -/

theorem memRead_push_same (v : Byte) (s : State) : memRead (push v s) (stackAddr s.sp) = v := by
  rw [memRead_push, if_pos (maskAddr_stackAddr s.sp)]

/-- The memory frame of a push is that of its one byte write. -/
theorem sameMemoryExcept_push (v : Byte) (s : State) : SameMemoryExcept [stackAddr s.sp] s (push v s) :=
  sameMemoryExcept_memWrite s (stackAddr s.sp) v

theorem sameRegistersExcept_push (v : Byte) (s : State) : SameRegistersExcept [.sp] s (push v s) := by
  intro r hr
  exact (sameRegistersExcept_setSp _ _ r hr).trans (readReg_memWrite r s (stackAddr s.sp) v)

/-- SP decremented mod 256: below 0x00 comes 0xFF (R95). -/
theorem push_sp_toNat (v : Byte) (s : State) : (push v s).sp.toNat = (s.sp.toNat + 255) % 256 := by
  rw [push_sp, BitVec.toNat_sub, Nat.add_comm]
  rfl

/-- The slot a pop reads, SP incremented mod 256 (R96). -/
theorem stackAddr_add_one (sp : Byte) : stackAddr (sp + 1) = 0x0100 + (sp.toNat + 1) % 256 := by
  rw [stackAddr, BitVec.toNat_add]
  rfl

/-- Settles O15: a push is one byte write and a write of SP, a pop a write of SP alone. -/
theorem pushStoresBelowAndPopReadsAbove : Obligations.PushStoresBelowAndPopReadsAbove := by
  intro v s
  have hPop : (pop s).1 = memRead s (0x0100 + (s.sp.toNat + 1) % 256) := by rw [pop_value, stackAddr_add_one]
  exact ⟨memRead_push_same v s, sameMemoryExcept_push v s, push_sp_toNat v s, sameRegistersExcept_push v s,
    BitVec.toNat_add s.sp 1, hPop, sameRegistersExcept_setSp s _, memRead_pop s, stackAddr_range s.sp⟩

end Sys2Proof.Machine
end

section
/-! The loads and stores (41_load_store.md R100 to R105). A load is a register write followed by UpdateNZ, a store is one
byte write at the effective address; each mode is then a choice of operand. -/

namespace Sys2Proof.Machine

/-! ## Operands in the indexed modes (40_step_and_addressing.md R87, R88, R90 to R92) -/

theorem value_zpx (b : Byte) (s : State) :
    (Source.mem (.zpx b)).value s = memRead s ((b.toNat + s.x.toNat) % 256) := by
  rw [Source.value, Address.ea, BitVec.toNat_add]

theorem value_zpy (b : Byte) (s : State) :
    (Source.mem (.zpy b)).value s = memRead s ((b.toNat + s.y.toNat) % 256) := by
  rw [Source.value, Address.ea, BitVec.toNat_add]

/-- The absolute sum is unmasked; the access wraps it (R90). -/
theorem value_abx (w : Word) (s : State) :
    (Source.mem (.abx w)).value s = memRead s ((w.toNat + s.x.toNat) % 65536) :=
  (memRead_maskAddr s (w.toNat + s.x.toNat)).symm

theorem value_aby (w : Word) (s : State) :
    (Source.mem (.aby w)).value s = memRead s ((w.toNat + s.y.toNat) % 65536) :=
  (memRead_maskAddr s (w.toNat + s.y.toNat)).symm

/-! ## A register write followed by UpdateNZ -/

theorem sameRegistersExcept_setA (s : State) (v : Byte) : SameRegistersExcept [.a] s (s.setA v) := by
  intro r hr
  cases r with
  | a => exact absurd (List.mem_singleton_self Reg.a) hr
  | x | y | sp | pc | p => rfl

theorem sameRegistersExcept_setX (s : State) (v : Byte) : SameRegistersExcept [.x] s (s.setX v) := by
  intro r hr
  cases r with
  | x => exact absurd (List.mem_singleton_self Reg.x) hr
  | a | y | sp | pc | p => rfl

theorem sameRegistersExcept_setY (s : State) (v : Byte) : SameRegistersExcept [.y] s (s.setY v) := by
  intro r hr
  cases r with
  | y => exact absurd (List.mem_singleton_self Reg.y) hr
  | a | x | sp | pc | p => rfl

/-- UpdateNZ adds P to the registers that a write may have changed. -/
theorem sameRegistersExcept_updateNZ_after {s u : State} {r : Reg} (h : SameRegistersExcept [r] s u) (v : Byte) :
    SameRegistersExcept [r, .p] s (updateNZ v u) := by
  intro q hq
  obtain ⟨hr, hp⟩ : q ∉ [r] ∧ q ∉ [Reg.p] := by simpa using hq
  exact (sameRegistersExcept_setP u _ q hp).trans (h q hr)

/-- What UpdateNZ leaves after a write of one register `r` that reached neither the flags nor memory. -/
theorem updateNZ_after_registerWrite {s u : State} {r : Reg} (hreg : SameRegistersExcept [r] s u)
    (hflags : ∀ f, u.flag f = s.flag f) (hmem : SameMemory s u) (v : Byte) :
    NZFollow v (updateNZ v u) ∧ SameRegistersExcept [r, .p] s (updateNZ v u) ∧
      SameFlagsExcept [.z, .n] s (updateNZ v u) ∧ SameMemory s (updateNZ v u) :=
  ⟨nzFollow_updateNZ v u, sameRegistersExcept_updateNZ_after hreg v,
    fun f hf => (sameFlagsExcept_updateNZ v u f hf).trans (hflags f),
    fun k => (memRead_updateNZ v u k).trans (hmem k)⟩

/-! ## Loads -/

/-- Settles O17: every mode is `loadA` of its operand, a write of A followed by UpdateNZ. -/
theorem ldaLoadsItsOperandInEveryMode : Obligations.LdaLoadsItsOperandInEveryMode := by
  intro s b w Loads
  have loads_value {i : Instr} {o : Source} {v : Byte} (hexec : exec i s = .next (loadA o s))
      (hv : o.value s = v) : Loads i v := by
    subst hv
    exact ⟨loadA o s, hexec, loadA_a s o,
      updateNZ_after_registerWrite (sameRegistersExcept_setA s _) (flag_setA s _) (memRead_setA s _) _⟩
  exact ⟨loads_value rfl rfl, loads_value rfl rfl, loads_value rfl (value_zpx b s), loads_value rfl rfl,
    loads_value rfl (value_abx w s), loads_value rfl (value_aby w s)⟩

/-- Settles O18: every mode is `loadX` of its operand; the indexed modes index with Y, so the old X is not read. -/
theorem ldxLoadsItsOperandInEveryMode : Obligations.LdxLoadsItsOperandInEveryMode := by
  intro s b w Loads
  have loads_value {i : Instr} {o : Source} {v : Byte} (hexec : exec i s = .next (loadX o s))
      (hv : o.value s = v) : Loads i v := by
    subst hv
    exact ⟨loadX o s, hexec, loadX_x s o,
      updateNZ_after_registerWrite (sameRegistersExcept_setX s _) (flag_setX s _) (memRead_setX s _) _⟩
  exact ⟨loads_value rfl rfl, loads_value rfl rfl, loads_value rfl (value_zpy b s), loads_value rfl rfl,
    loads_value rfl (value_aby w s)⟩

/-- Settles O19: every mode is `loadY` of its operand; the indexed modes index with X. -/
theorem ldyLoadsItsOperandInEveryMode : Obligations.LdyLoadsItsOperandInEveryMode := by
  intro s b w Loads
  have loads_value {i : Instr} {o : Source} {v : Byte} (hexec : exec i s = .next (loadY o s))
      (hv : o.value s = v) : Loads i v := by
    subst hv
    exact ⟨loadY o s, hexec, loadY_y s o,
      updateNZ_after_registerWrite (sameRegistersExcept_setY s _) (flag_setY s _) (memRead_setY s _) _⟩
  exact ⟨loads_value rfl rfl, loads_value rfl rfl, loads_value rfl (value_zpx b s), loads_value rfl rfl,
    loads_value rfl (value_abx w s)⟩

/-! ## Stores -/

/-- An instruction whose meaning is `store` puts the byte at its effective address and changes nothing else: the frame
is that of one byte write. -/
theorem exec_store_spec {i : Instr} {o : Address} {v : Byte} {s : State} (hexec : exec i s = .next (store o v s)) :
    ∃ t, exec i s = .next t ∧ memRead t (o.ea s) = v ∧ SameMemoryExcept [o.ea s] s t ∧ SameRegistersExcept [] s t :=
  ⟨store o v s, hexec, memRead_memWrite_same rfl s v, sameMemoryExcept_memWrite s (o.ea s) v,
    fun r _ => readReg_memWrite r s (o.ea s) v⟩

/-- Settles O20: each mode of STA is `store` of A. -/
theorem staStoresAtItsEffectiveAddress : Obligations.StaStoresAtItsEffectiveAddress := by
  intro s b w Stores
  exact ⟨exec_store_spec rfl, exec_store_spec rfl, exec_store_spec rfl, exec_store_spec rfl, exec_store_spec rfl⟩

/-- Settles O21: each mode of STX is `store` of X. -/
theorem stxStoresAtItsEffectiveAddress : Obligations.StxStoresAtItsEffectiveAddress := by
  intro s b w Stores
  exact ⟨exec_store_spec rfl, exec_store_spec rfl, exec_store_spec rfl⟩

/-- Settles O22: each mode of STY is `store` of Y. -/
theorem styStoresAtItsEffectiveAddress : Obligations.StyStoresAtItsEffectiveAddress := by
  intro s b w Stores
  exact ⟨exec_store_spec rfl, exec_store_spec rfl, exec_store_spec rfl⟩

end Sys2Proof.Machine
end

section
/-! ADC and AND (42_arith_logic.md R110, R111). AND is a write of A followed by UpdateNZ; ADC writes P from its unmasked
sum, then A. Each mode is then a choice of operand. -/

namespace Sys2Proof.Machine

/-! ## AND -/

/-- Settles O25: every mode is `andWithA` of its operand, a write of A followed by UpdateNZ. -/
theorem andMasksTheAccumulatorInEveryMode : Obligations.AndMasksTheAccumulatorInEveryMode := by
  intro s b w Ands
  have ands_value {i : Instr} {o : Source} {m : Byte} (hexec : exec i s = .next (andWithA o s))
      (hm : o.value s = m) : Ands i m := by
    subst hm
    exact ⟨andWithA o s, hexec, fun _ => BitVec.getLsbD_and,
      updateNZ_after_registerWrite (sameRegistersExcept_setA s _) (flag_setA s _) (memRead_setA s _) _⟩
  exact ⟨ands_value rfl rfl, ands_value rfl rfl, ands_value rfl (value_zpx b s), ands_value rfl rfl,
    ands_value rfl (value_abx w s), ands_value rfl (value_aby w s)⟩

/-! ## ADC -/

/-- ADC writes P and A and no other register. -/
theorem sameRegistersExcept_addWithCarry (o : Source) (s : State) :
    SameRegistersExcept [.a, .p] s (addWithCarry o s) := by
  intro r hr
  obtain ⟨ha, hp⟩ : r ∉ [Reg.a] ∧ r ∉ [Reg.p] := by simpa using hr
  exact (sameRegistersExcept_setA _ _ r ha).trans (sameRegistersExcept_setP s _ r hp)

/-- Every flag after ADC, from the unmasked sum. -/
theorem flag_addWithCarry (o : Source) (s : State) (f : Flag) :
    (addWithCarry o s).flag f =
      getFlag f (adcStatus Config.adcBit6Target (adcSum s.a (o.value s) (s.flag .c)) s.p) := by
  rw [State.flag, addWithCarry_p]

/-- N and Z are written last, so they follow the masked sum under either value of the parameter. -/
theorem nzFollow_addWithCarry (o : Source) (s : State) : NZFollow (addWithCarry o s).a (addWithCarry o s) := by
  constructor
  · rw [flag_addWithCarry, getFlag_adcStatus, if_neg (by decide), if_pos rfl, addWithCarry_a, beq_eq_decide]
  · rw [flag_addWithCarry, getFlag_adcStatus, if_pos rfl, addWithCarry_a, bit7_eq]

/-- The carry is the ninth bit of the sum. -/
theorem flag_c_addWithCarry (o : Source) (s : State) :
    (addWithCarry o s).flag .c = decide (adcSum s.a (o.value s) (s.flag .c) > 255) := by
  rw [flag_addWithCarry, getFlag_adcStatus, if_neg (by decide), if_neg (by decide), if_pos rfl]

/-- Bit 6 of the sum goes to V where the parameter says V, and V keeps its value where it says N. -/
theorem flag_v_addWithCarry (o : Source) (s : State) :
    (addWithCarry o s).flag .v =
      if Config.adcBit6Target = .v then decide (adcSum s.a (o.value s) (s.flag .c) / 64 % 2 = 1)
      else s.flag .v := by
  rw [flag_addWithCarry, getFlag_adcStatus, Nat.testBit_eq_decide_div_mod_eq]
  cases Config.adcBit6Target <;> rfl

/-- ADC writes the flags C, Z, V and N only. -/
theorem sameFlagsExcept_addWithCarry (o : Source) (s : State) :
    SameFlagsExcept [.c, .z, .v, .n] s (addWithCarry o s) := by
  intro f hf
  obtain ⟨hc, hz, hv, hn⟩ : f ≠ .c ∧ f ≠ .z ∧ f ≠ .v ∧ f ≠ .n := by simpa using hf
  rw [flag_addWithCarry, getFlag_adcStatus, if_neg hn, if_neg hz, if_neg hc, if_neg fun h => hv h.1, State.flag]

/-- Settles O23: every mode is `addWithCarry` of its operand; `adcSum` is the sum of the statement. -/
theorem adcAddsWithCarryInEveryMode : Obligations.AdcAddsWithCarryInEveryMode := by
  intro s b w Adds
  have adds_value {i : Instr} {o : Source} {m : Byte} (hexec : exec i s = .next (addWithCarry o s))
      (hm : o.value s = m) : Adds i m := by
    subst hm
    refine ⟨addWithCarry o s, hexec, ?_, flag_c_addWithCarry o s, nzFollow_addWithCarry o s, ?_,
      sameRegistersExcept_addWithCarry o s, sameFlagsExcept_addWithCarry o s, memRead_addWithCarry s o⟩
    · rw [addWithCarry_a, BitVec.toNat_ofNat, adcSum]
    · rw [flag_v_addWithCarry, adcSum]
      cases Config.adcBit6Target <;> rfl
  exact ⟨adds_value rfl rfl, adds_value rfl rfl, adds_value rfl (value_zpx b s), adds_value rfl rfl,
    adds_value rfl (value_abx w s), adds_value rfl (value_aby w s)⟩

end Sys2Proof.Machine
end

section
/-! The register transfers, increments and decrements (43_transfer_incdec.md R120 to R127). All eight write one register
and follow it with UpdateNZ of the value written; they differ in the register and the value. -/

namespace Sys2Proof.Machine

/-! ## What such a write leaves besides the value in its register -/

theorem writeA_frame (v : Byte) (s : State) :
    NZFollow v (writeA v s) ∧ SameRegistersExcept [.a, .p] s (writeA v s) ∧
      SameFlagsExcept [.z, .n] s (writeA v s) ∧ SameMemory s (writeA v s) :=
  updateNZ_after_registerWrite (sameRegistersExcept_setA s v) (flag_setA s v) (memRead_setA s v) v

theorem writeX_frame (v : Byte) (s : State) :
    NZFollow v (writeX v s) ∧ SameRegistersExcept [.x, .p] s (writeX v s) ∧
      SameFlagsExcept [.z, .n] s (writeX v s) ∧ SameMemory s (writeX v s) :=
  updateNZ_after_registerWrite (sameRegistersExcept_setX s v) (flag_setX s v) (memRead_setX s v) v

theorem writeY_frame (v : Byte) (s : State) :
    NZFollow v (writeY v s) ∧ SameRegistersExcept [.y, .p] s (writeY v s) ∧
      SameFlagsExcept [.z, .n] s (writeY v s) ∧ SameMemory s (writeY v s) :=
  updateNZ_after_registerWrite (sameRegistersExcept_setY s v) (flag_setY s v) (memRead_setY s v) v

/-! ## Transfers -/

/-- Settles O26: each transfer writes the source's old value to its destination. -/
theorem transfersCopyBetweenRegisters : Obligations.TransfersCopyBetweenRegisters := by
  intro s Copies
  have tax : Copies .tax .x State.x s.a := ⟨writeX s.a s, rfl, writeX_x s s.a, writeX_frame s.a s⟩
  have tay : Copies .tay .y State.y s.a := ⟨writeY s.a s, rfl, writeY_y s s.a, writeY_frame s.a s⟩
  have txa : Copies .txa .a State.a s.x := ⟨writeA s.x s, rfl, writeA_a s s.x, writeA_frame s.x s⟩
  have tya : Copies .tya .a State.a s.y := ⟨writeA s.y s, rfl, writeA_a s s.y, writeA_frame s.y s⟩
  exact ⟨tax, tay, txa, tya⟩

/-! ## Increments and decrements -/

/-- A byte decremented mod 256: below 0x00 comes 0xFF (R126, R127). -/
theorem byte_sub_one_toNat (v : Byte) : (v - 1).toNat = (v.toNat + 255) % 256 := by
  rw [BitVec.toNat_sub, Nat.add_comm]
  rfl

/-- Settles O27: each count writes the register's old value plus or minus 1, and byte arithmetic wraps mod 256. -/
theorem incrementsAndDecrementsWrapModTwoHundredFiftySix :
    Obligations.IncrementsAndDecrementsWrapModTwoHundredFiftySix := by
  intro s Counts
  have counts_x {i : Instr} {v : Byte} {d : Nat} (hexec : exec i s = .next (writeX v s))
      (hv : v.toNat = (s.x.toNat + d) % 256) : Counts i .x State.x d :=
    ⟨writeX v s, hexec, hv, writeX_frame v s⟩
  have counts_y {i : Instr} {v : Byte} {d : Nat} (hexec : exec i s = .next (writeY v s))
      (hv : v.toNat = (s.y.toNat + d) % 256) : Counts i .y State.y d :=
    ⟨writeY v s, hexec, hv, writeY_frame v s⟩
  exact ⟨counts_x rfl (BitVec.toNat_add s.x 1), counts_y rfl (BitVec.toNat_add s.y 1),
    counts_x rfl (byte_sub_one_toNat s.x), counts_y rfl (byte_sub_one_toNat s.y)⟩

end Sys2Proof.Machine
end

section
/-! The subroutine transfers JSR and RTS (44_control.md R131, R132). JSR is a word push and RTS a word pop, each followed
by a write of PC. -/

namespace Sys2Proof.Machine

/-! ## The word push and the word pop -/

theorem memRead_pushWord_high (w : Word) (s : State) : memRead (pushWord w s) (stackAddr s.sp) = highByte w := by
  obtain ⟨hslots, -, -⟩ := stack_slots_distinct s.sp
  have hne : stackAddr s.sp ≠ stackAddr (s.sp - 1) := mt stackAddr_inj.mp hslots.symm
  rw [memRead_pushWord, maskAddr_stackAddr, if_neg hne, if_pos rfl]

theorem memRead_pushWord_low (w : Word) (s : State) :
    memRead (pushWord w s) (stackAddr (s.sp - 1)) = lowByte w := by
  rw [memRead_pushWord, if_pos (maskAddr_stackAddr _)]

/-- The memory frame of a word push is its two slots. -/
theorem sameMemoryExcept_pushWord (w : Word) (s : State) :
    SameMemoryExcept [stackAddr s.sp, stackAddr (s.sp - 1)] s (pushWord w s) := by
  intro k hk
  obtain ⟨hhigh, hlow⟩ : maskAddr k ≠ stackAddr s.sp ∧ maskAddr k ≠ stackAddr (s.sp - 1) := by simpa using hk
  rw [memRead_pushWord, if_neg hlow, if_neg hhigh]

/-- A word push is two pushes, and each moves SP only. -/
theorem sameRegistersExcept_pushWord (w : Word) (s : State) : SameRegistersExcept [.sp] s (pushWord w s) := by
  intro r hr
  exact (sameRegistersExcept_push _ _ r hr).trans (sameRegistersExcept_push _ s r hr)

/-- SP after a word push is decremented twice, wrapping mod 256 each time. -/
theorem pushWord_sp_toNat (w : Word) (s : State) : (pushWord w s).sp.toNat = (s.sp.toNat + 254) % 256 := by
  rw [pushWord, push_sp_toNat, push_sp_toNat, Nat.mod_add_mod]
  omega

/-- SP after two pops; as a slot, the one the second pop reads (R96). -/
theorem sp_add_one_add_one (sp : Byte) : sp + 1 + 1 = sp + 2 := BitVec.add_assoc sp 1 1

/-! ## The write of PC that follows -/

/-- A jump adds PC to the one register that a stack access moved. -/
theorem sameRegistersExcept_setPc_after {s u : State} {r : Reg} (h : SameRegistersExcept [r] s u) (v : Word) :
    SameRegistersExcept [r, .pc] s (u.setPc v) := by
  intro q hq
  obtain ⟨hr, hpc⟩ : q ∉ [r] ∧ q ∉ [Reg.pc] := by simpa using hq
  exact (sameRegistersExcept_setPc u v q hpc).trans (h q hr)

/-! ## JSR -/

theorem exec_jsr (w : Word) (s : State) : exec (.jsr w) s = .next ((pushWord (s.pc - 1) s).setPc w) := rfl

/-- The address JSR pushes: PC decremented mod 65536, so at PC = 0x0000 it is 0xFFFF. -/
theorem word_sub_one_toNat (w : Word) : (w - 1).toNat = (w.toNat + 65535) % 65536 := by
  rw [BitVec.toNat_sub, Nat.add_comm]
  rfl

/-- Settles O29: JSR is `pushWord` of PC - 1 and a write of PC, which reaches neither memory nor SP. -/
theorem jsrPushesTheAddressOfItsLastByte : Obligations.JsrPushesTheAddressOfItsLastByte := by
  intro s w
  refine ⟨_, exec_jsr w s, ?high, ?low, sameMemoryExcept_pushWord (s.pc - 1) s, pushWord_sp_toNat (s.pc - 1) s, rfl,
    sameRegistersExcept_setPc_after (sameRegistersExcept_pushWord (s.pc - 1) s) w⟩
  case high => rw [memRead_setPc, memRead_pushWord_high, highByte_toNat, word_sub_one_toNat]
  case low => rw [memRead_setPc, memRead_pushWord_low, lowByte_toNat, word_sub_one_toNat]

/-! ## RTS -/

theorem exec_rts (s : State) :
    exec .rts s = .next ((s.setSp (s.sp + 2)).setPc
      (wordOf (memRead s (stackAddr (s.sp + 1))) (memRead s (stackAddr (s.sp + 2))) + 1)) := by
  rw [← sp_add_one_add_one]
  rfl

/-- Settles O30: RTS is `popWord` and a write of PC; both move registers only. -/
theorem rtsPopsLowThenHighAndAddsOne : Obligations.RtsPopsLowThenHighAndAddsOne := by
  intro s
  refine ⟨_, exec_rts s, ?pc, BitVec.toNat_add s.sp 2,
    sameRegistersExcept_setPc_after (sameRegistersExcept_setSp s (s.sp + 2)) _, fun _ => rfl⟩
  case pc =>
    rw [setPc_pc, BitVec.toNat_add, wordOf_toNat]
    rfl

end Sys2Proof.Machine
end

section
/-! The stack instructions and the software break (45_stack_brk.md R140 to R142). PHA is a push, PLA a pop followed by a
write of A, BRK is `takeBreak`: three pushes, a write of I and a write of PC from the vector. -/

namespace Sys2Proof.Machine

/-! ## PHA -/

theorem exec_pha (s : State) : exec .pha s = .next (push s.a s) := rfl

/-- Settles O31: PHA is `push` of A, so its frame is that of a push. -/
theorem phaPushesTheAccumulator : Obligations.PhaPushesTheAccumulator := by
  intro s
  exact ⟨_, exec_pha s, memRead_push_same s.a s, sameMemoryExcept_push s.a s, push_sp_toNat s.a s,
    sameRegistersExcept_push s.a s⟩

/-! ## PLA -/

/-- Register frames compose: what neither of two successive changes lists is unchanged by both. -/
theorem sameRegistersExcept_trans {s u t : State} {qs rs ts : List Reg} (hsu : SameRegistersExcept qs s u)
    (hut : SameRegistersExcept rs u t) (hqs : qs ⊆ ts) (hrs : rs ⊆ ts) : SameRegistersExcept ts s t :=
  fun r hr => (hut r (mt (@hrs r) hr)).trans (hsu r (mt (@hqs r) hr))

/-- The pop moves SP and returns the byte at the new slot; A and its NZ update follow (R141). -/
theorem exec_pla (s : State) :
    exec .pla s = .next (writeA (memRead s (stackAddr (s.sp + 1))) (s.setSp (s.sp + 1))) := rfl

/-- Settles O32: PLA is a write of SP and a write of A followed by UpdateNZ, and a write of SP reaches neither flags
nor memory. -/
theorem plaPullsTheAccumulator : Obligations.PlaPullsTheAccumulator := by
  intro s
  obtain ⟨hNZ, hregs, hflags, hmem⟩ := writeA_frame (memRead s (stackAddr (s.sp + 1))) (s.setSp (s.sp + 1))
  exact ⟨_, exec_pla s, writeA_a _ _, BitVec.toNat_add s.sp 1, hNZ,
    sameRegistersExcept_trans (sameRegistersExcept_setSp s _) hregs (by decide) (by decide), hflags, hmem⟩

/-! ## BRK -/

theorem exec_brk (s : State) : exec .brk s = .next (takeBreak s) := rfl

/-- SP after two pushes; as a slot, the one the third push writes (R95). -/
theorem sp_sub_one_sub_one (sp : Byte) : sp - 1 - 1 = sp - 2 := BitVec.sub_sub sp 1 1

/-- A stack slot after BRK: the status copy in the third, the word push's byte elsewhere. -/
theorem memRead_takeBreak_stackAddr (s : State) (q : Byte) :
    memRead (takeBreak s) (stackAddr q) =
      if q = s.sp - 2 then brkStatusCopy s.p else memRead (pushWord (s.pc + 1) s) (stackAddr q) := by
  simp only [memRead_takeBreak, maskAddr_stackAddr, sp_sub_one_sub_one, stackAddr_inj]

/-- The three slots of BRK: the return address's high and low byte, then the status with the old I. -/
theorem memRead_takeBreak_slots (s : State) :
    memRead (takeBreak s) (stackAddr s.sp) = highByte (s.pc + 1) ∧
      memRead (takeBreak s) (stackAddr (s.sp - 1)) = lowByte (s.pc + 1) ∧
      memRead (takeBreak s) (stackAddr (s.sp - 2)) = brkStatusCopy s.p := by
  obtain ⟨-, hthird_first, hthird_second⟩ := stack_slots_distinct s.sp
  refine ⟨?high, ?low, ?status⟩
  case high => rw [memRead_takeBreak_stackAddr, if_neg hthird_first.symm, memRead_pushWord_high]
  case low => rw [memRead_takeBreak_stackAddr, if_neg hthird_second.symm, memRead_pushWord_low]
  case status => rw [memRead_takeBreak_stackAddr, if_pos rfl]

/-- The memory frame of BRK is its three slots. -/
theorem sameMemoryExcept_takeBreak (s : State) :
    SameMemoryExcept [stackAddr s.sp, stackAddr (s.sp - 1), stackAddr (s.sp - 2)] s (takeBreak s) := by
  intro k hk
  obtain ⟨hhigh, hlow, hstatus⟩ :
      maskAddr k ≠ stackAddr s.sp ∧ maskAddr k ≠ stackAddr (s.sp - 1) ∧ maskAddr k ≠ stackAddr (s.sp - 2) := by
    simpa using hk
  rw [memRead_takeBreak, sp_sub_one_sub_one, if_neg hstatus, memRead_pushWord, if_neg hlow, if_neg hhigh]

/-- The pushes of BRK stay in page 1 (R97), so no byte above it changes. -/
theorem memRead_takeBreak_above_stack (s : State) {k : Nat} (hk : 0x01FF < maskAddr k) :
    memRead (takeBreak s) k = memRead s k := by
  apply sameMemoryExcept_takeBreak s k
  have hne (q : Byte) : maskAddr k ≠ stackAddr q := by
    obtain ⟨-, hle⟩ := stackAddr_range q
    omega
  simp only [List.map_cons, List.map_nil, maskAddr_stackAddr, List.mem_cons, List.not_mem_nil, hne, or_self,
    not_false_eq_true]

/-- The vector is read after the pushes, which do not reach it. -/
theorem takeBreak_pc (s : State) : (takeBreak s).pc = readWord s brkVector := by
  have hread : (takeBreak s).pc = readWord (takeBreak s) brkVector := rfl
  rw [hread, readWord, memRead_takeBreak_above_stack s (by decide), memRead_takeBreak_above_stack s (by decide),
    readWord]

/-- SP after BRK is decremented three times, wrapping mod 256 each time. -/
theorem takeBreak_sp_toNat (s : State) : (takeBreak s).sp.toNat = (s.sp.toNat + 253) % 256 := by
  have hpushes : (takeBreak s).sp = (push (brkStatusCopy s.p) (pushWord (s.pc + 1) s)).sp := rfl
  rw [hpushes, push_sp_toNat, pushWord_sp_toNat, Nat.mod_add_mod]
  omega

/-- BRK sets I and no other flag of P. -/
theorem flag_takeBreak (s : State) (f : Flag) : (takeBreak s).flag f = if f = .i then true else s.flag f := by
  obtain ⟨-, -, -, -, hp⟩ := takeBreak_registers s
  rw [State.flag, hp, getFlag_setFlag, State.flag]

theorem sameRegistersExcept_takeBreak (s : State) : SameRegistersExcept [.sp, .pc, .p] s (takeBreak s) := by
  obtain ⟨ha, hx, hy, -, -⟩ := takeBreak_registers s
  intro r hr
  cases r with
  | a => exact congrArg BitVec.toNat ha
  | x => exact congrArg BitVec.toNat hx
  | y => exact congrArg BitVec.toNat hy
  | sp | pc | p => exact absurd hr (by decide)

/-- Settles O33: BRK is `takeBreak`; the vector word lies above the stack page, so PC takes it as it was on entry. -/
theorem brkEntersThroughTheVector : Obligations.BrkEntersThroughTheVector := by
  intro s
  obtain ⟨hhigh, hlow, hstatus⟩ := memRead_takeBreak_slots s
  have hreturn : (s.pc + 1).toNat = (s.pc.toNat + 1) % 65536 := BitVec.toNat_add s.pc 1
  refine ⟨_, exec_brk s, ?high, ?low, hstatus, sameMemoryExcept_takeBreak s, takeBreak_sp_toNat s, ?iSet, ?flags, ?pc,
    sameRegistersExcept_takeBreak s⟩
  case high => rw [hhigh, highByte_toNat, hreturn]
  case low => rw [hlow, lowByte_toNat, hreturn]
  case iSet => rw [flag_takeBreak, if_pos rfl]
  case flags =>
    intro f hf
    rw [flag_takeBreak, if_neg (by simpa using hf)]
  case pc =>
    rw [takeBreak_pc, readWord_toNat]
    rfl

end Sys2Proof.Machine
end

section
/-! The disassembler on bytes outside the Instruction Table (46_disassembler.md R151). -/

namespace Sys2Proof.Machine

theorem populated_eq_false_iff {op : Byte} : populated op = false ↔ lookup op = none := by
  rw [populated, Option.isSome_eq_false_iff, Option.isNone_iff_eq_none]

/-- Where the table has no entry, the record is of the opcode byte alone. -/
theorem disassemble_of_lookup_none {s : State} {a : Nat} (h : lookup (memRead s a) = none) :
    disassemble s a = ⟨a, [memRead s a], "???", "", "Unknown opcode"⟩ := by
  simp only [disassemble, h]

/-- Settles O57: an unpopulated byte is one the lookup finds no entry for. -/
theorem disassemblingAnUnpopulatedByteGivesTheSentinel :
    Obligations.DisassemblingAnUnpopulatedByteGivesTheSentinel := by
  intro s a hunpopulated
  exact disassemble_of_lookup_none (populated_eq_false_iff.mp hunpopulated)

end Sys2Proof.Machine
end

section
/-! The host's stack access (60_exceptions.md R172): a pop undoes the move of SP a push makes, so it reads the slot the
push wrote. -/

namespace Sys2Proof.Machine

/-- SP wraps the same way in both directions, so a pop restores the SP a push moved, also from 0x00. -/
theorem pop_push_sp (v : Byte) (s : State) : (pop (push v s)).2.sp = s.sp := by
  rw [pop_sp, push_sp, BitVec.sub_add_cancel]

theorem pop_push_value (v : Byte) (s : State) : (pop (push v s)).1 = v := by
  rw [pop_value, push_sp, BitVec.sub_add_cancel, memRead_push_same]

/-- Each of the two moves SP only, and SP is restored. -/
theorem sameRegistersExcept_pop_push (v : Byte) (s : State) : SameRegistersExcept [] s (pop (push v s)).2 := by
  have hothers : SameRegistersExcept [.sp] s (pop (push v s)).2 :=
    sameRegistersExcept_trans (sameRegistersExcept_push v s) (sameRegistersExcept_setSp (push v s) _)
      (List.Subset.refl _) (List.Subset.refl _)
  intro r _
  by_cases hr : r = .sp
  · subst hr
    exact congrArg BitVec.toNat (pop_push_sp v s)
  · exact hothers r (by simpa using hr)

/-- Settles O16: both transactions complete as `push` and `pop`, and the host's value comes back as its byte. -/
theorem hostPopReturnsTheBytePushed : Obligations.HostPopReturnsTheBytePushed := by
  intro s v
  have hPop : transact .pop (push (BitVec.ofNat 8 v) s) =
      .next ((pop (push (BitVec.ofNat 8 v) s)).2, .value (v % 256)) := by
    rw [transact, pop_push_value, BitVec.toNat_ofNat]
  exact ⟨_, _, rfl, rfl, hPop, rfl, sameRegistersExcept_pop_push _ s⟩

end Sys2Proof.Machine
end

section
/-! The decoder and the encoder are inverse (30_encoding.md R60 to R67), and the opcode map written out byte by byte.
Both follow from the three formats: an instruction is its opcode's executor applied to its operand bytes. -/

namespace Sys2Proof

open Machine

/-! ## One decoding rule per format (R62 to R64) -/

theorem lookup_of_executor {op : Byte} {x : Executor} (h : (lookup op).map Entry.executor = some x) :
    ∃ e, lookup op = some e ∧ e.executor = x := Option.map_eq_some_iff.mp h

theorem decode_imp {op : Byte} {i : Instr} (h : (lookup op).map Entry.executor = some (.imp i)) (rest : List Byte) :
    decode (op :: rest) = .ok i rest := by
  obtain ⟨e, he, hx⟩ := lookup_of_executor h
  simp only [decode, he, hx]

theorem decode_b8 {op : Byte} {f : Byte → Instr} (h : (lookup op).map Entry.executor = some (.b8 f)) (b : Byte)
    (rest : List Byte) : decode (op :: b :: rest) = .ok (f b) rest := by
  obtain ⟨e, he, hx⟩ := lookup_of_executor h
  simp only [decode, he, hx]

theorem decode_w16 {op : Byte} {f : Word → Instr} (h : (lookup op).map Entry.executor = some (.w16 f)) (lo hi : Byte)
    (rest : List Byte) : decode (op :: lo :: hi :: rest) = .ok (f (wordOf lo hi)) rest := by
  obtain ⟨e, he, hx⟩ := lookup_of_executor h
  simp only [decode, he, hx]

/-- Settles O2: each row is the decoding rule of its format at that opcode byte. -/
theorem everyRowsBytesDecodeToItsInstruction : Obligations.EveryRowsBytesDecodeToItsInstruction := by
  intro b lo hi rest
  have b8 {op : Byte} {f : Byte → Instr} (h : (lookup op).map Entry.executor = some (.b8 f)) := decode_b8 h b rest
  have w16 {op : Byte} {f : Word → Instr} (h : (lookup op).map Entry.executor = some (.w16 f)) :=
    decode_w16 h lo hi rest
  have imp {op : Byte} {i : Instr} (h : (lookup op).map Entry.executor = some (.imp i)) := decode_imp h rest
  exact ⟨b8 rfl, b8 rfl, b8 rfl, w16 rfl, w16 rfl, w16 rfl,  -- LDA
    b8 rfl, b8 rfl, b8 rfl, w16 rfl, w16 rfl,  -- LDX
    b8 rfl, b8 rfl, b8 rfl, w16 rfl, w16 rfl,  -- LDY
    b8 rfl, b8 rfl, w16 rfl, w16 rfl, w16 rfl,  -- STA
    b8 rfl, b8 rfl, w16 rfl,  -- STX
    b8 rfl, b8 rfl, w16 rfl,  -- STY
    b8 rfl, b8 rfl, b8 rfl, w16 rfl, w16 rfl, w16 rfl,  -- ADC
    b8 rfl, b8 rfl, b8 rfl, w16 rfl, w16 rfl, w16 rfl,  -- AND
    imp rfl, imp rfl, imp rfl, imp rfl, imp rfl, imp rfl, imp rfl, imp rfl,  -- TAX to DEY
    w16 rfl, w16 rfl,  -- JMP, JSR
    imp rfl, imp rfl, imp rfl, imp rfl⟩  -- RTS, PHA, PLA, BRK

/-! ## The format of an instruction -/

/-- The format the instruction's opcode has in the Instruction Table, with its operand as the encoder writes it and as
the number it spells (R62 to R65). -/
inductive Instr.Format (i : Instr) : Prop
  | imp (hrow : (lookup i.opcode).map Entry.executor = some (.imp i)) (hbytes : i.operandBytes = [])
      (hoperand : i.operand = 0)
  | b8 (f : Byte → Instr) (b : Byte) (hrow : (lookup i.opcode).map Entry.executor = some (.b8 f)) (hi : i = f b)
      (hbytes : i.operandBytes = [b]) (hoperand : i.operand = b.toNat)
  | w16 (f : Word → Instr) (w : Word) (hrow : (lookup i.opcode).map Entry.executor = some (.w16 f)) (hi : i = f w)
      (hbytes : i.operandBytes = [lowByte w, highByte w]) (hoperand : i.operand = w.toNat)

/-- Every instruction has one of the three formats. -/
theorem Instr.format (i : Instr) : i.Format := by
  cases i with
  | tax | tay | txa | tya | inx | iny | dex | dey | rts | pha | pla | brk => exact .imp rfl rfl rfl
  | ldaImm b | ldaZp b | ldaZpx b | ldxImm b | ldxZp b | ldxZpy b | ldyImm b | ldyZp b | ldyZpx b | staZp b | staZpx b
  | stxZp b | stxZpy b | styZp b | styZpx b | adcImm b | adcZp b | adcZpx b | andImm b | andZp b | andZpx b =>
    exact .b8 _ b rfl rfl rfl rfl
  | ldaAbs w | ldaAbx w | ldaAby w | ldxAbs w | ldxAby w | ldyAbs w | ldyAbx w | staAbs w | staAbx w | staAby w
  | stxAbs w | styAbs w | adcAbs w | adcAbx w | adcAby w | andAbs w | andAbx w | andAby w | jmp w | jsr w =>
    exact .w16 _ w rfl rfl rfl rfl

/-- Settles O3: in each format the opcode's row takes exactly the operand bytes the encoder wrote. -/
theorem decodingAnEncodingGivesTheInstructionBack : Obligations.DecodingAnEncodingGivesTheInstructionBack := by
  intro i rest
  rw [encode, List.cons_append]
  cases i.format with
  | imp hrow hbytes _ =>
    rw [hbytes]
    exact decode_imp hrow rest
  | b8 f b hrow hi hbytes _ =>
    rw [hbytes, List.singleton_append, decode_b8 hrow, ← hi]
  | w16 f w hrow hi hbytes _ =>
    rw [hbytes, List.cons_append, List.singleton_append, decode_w16 hrow, wordOf_low_high, ← hi]

/-- The encoder writes back the operand bytes that a row's executor was given. -/
theorem table_row_operandBytes : ∀ e ∈ instructionTable, ∀ lo hi : Byte,
    (e.executor.apply lo (wordOf lo hi)).operandBytes = [lo, hi].take e.executor.operandBytes := by
  simp [instructionTable, loadTable, storeTable, aluTable, impliedTable, Executor.apply, Executor.operandBytes,
    Instr.operandBytes]

/-- Settles O4: the opcode of the decoded instruction is the byte looked up, its operand bytes are those taken. -/
theorem everyDecodedInstructionHasOnlyItsOwnBytes : Obligations.EveryDecodedInstructionHasOnlyItsOwnBytes := by
  intro bs i rest h
  cases bs with
  | nil => cases h
  | cons op bs =>
    obtain ⟨e, lo, hi, he, rfl, rfl⟩ := decode_cons_eq_ok_iff.mp h
    obtain ⟨-, hop, -, -⟩ := lookup_executor he lo (wordOf lo hi)
    rw [encode, hop, table_row_operandBytes e (lookup_some he).1, List.cons_append]

/-! ## The opcode map -/

/-- Settles O6: the populated bytes are evaluated once, and the pairs are read off the map they give. -/
theorem exactlyTheMappedPairsArePopulated : Obligations.ExactlyTheMappedPairsArePopulated := by
  unfold Obligations.ExactlyTheMappedPairsArePopulated
  intro ops found map1 map2 map3 map4 pairs taken
  have hfound : found = map1 ++ map2 ++ map3 ++ map4 := by decide +kernel +zetaReduce
  have hpairs : pairs = (map1 ++ map2 ++ map3 ++ map4).map Prod.snd := congrArg (List.map Prod.snd) hfound
  rw [hpairs, hfound]
  refine ⟨rfl, rfl, ?distinct, ?takenStand, ?standTaken, ?unpopulated⟩
  all_goals decide +kernel +zetaReduce

/-! ## Well-formedness -/

theorem modeTaken_written (i : Instr) : i.written.modeTaken = true := by
  cases i <;> rfl

/-- The encoder writes as many operand bytes as the mode has (R61). -/
theorem length_operandBytes (i : Instr) : i.operandBytes.length = i.mode.operandBytes := by
  have := length_encode i
  rw [encode, Instr.length, List.length_cons] at this
  omega

/-- An operand fits the operand bytes of its format (R65). -/
theorem operandFits_written (i : Instr) : i.written.operandFits = true := by
  rw [Written.operandFits, decide_eq_true_eq]
  show i.operand < 2 ^ (8 * i.mode.operandBytes)
  rw [← length_operandBytes]
  cases i.format with
  | imp _ hbytes hoperand => rw [hbytes, hoperand]; decide
  | b8 _ b _ _ hbytes hoperand => rw [hbytes, hoperand]; exact b.isLt
  | w16 _ w _ _ hbytes hoperand => rw [hbytes, hoperand]; exact w.isLt

theorem wellFormed (i : Instr) : WellFormed i = true := by
  rw [WellFormed, Written.wellFormed, modeTaken_written, operandFits_written]
  rfl

end Sys2Proof
end

section
/-! What a step can do, said once. Every instruction completes, and its meaning is one of eleven shapes: a write of A, X
or Y with its NZ update, ADC, a store, a control transfer, a stack instruction or the break. Each claim about which
mnemonics write a register, a flag or memory is then one case split over the shapes. -/

namespace Sys2Proof.Machine

/-! ## The shapes -/

/-- The value is computed without the status register. -/
def ReadsNoStatus (v : State → Byte) : Prop := ∀ s p, v (s.setP p) = v s

/-- What a mnemonic may make of the state, PC already past the instruction: one constructor per shape, with the
mnemonics that have it and what of the status its operands may read. -/
inductive Meaning : Mnemonic → (State → State) → Prop
  | writeA {n : Mnemonic} {v : State → Byte} (hn : n ∈ [Mnemonic.lda, .and, .txa, .tya]) (hv : ReadsNoStatus v) :
      Meaning n fun s => writeA (v s) s
  | writeX {n : Mnemonic} {v : State → Byte} (hn : n ∈ [Mnemonic.ldx, .tax, .inx, .dex]) (hv : ReadsNoStatus v) :
      Meaning n fun s => writeX (v s) s
  | writeY {n : Mnemonic} {v : State → Byte} (hn : n ∈ [Mnemonic.ldy, .tay, .iny, .dey]) (hv : ReadsNoStatus v) :
      Meaning n fun s => writeY (v s) s
  | adc (o : Source) : Meaning .adc (addWithCarry o)
  | store {n : Mnemonic} {v : State → Byte} (o : Address) (hn : n ∈ [Mnemonic.sta, .stx, .sty])
      (hv : ReadsNoStatus v) : Meaning n fun s => store o (v s) s
  | jmp (w : Word) : Meaning .jmp fun s => s.setPc w
  | jsr (w : Word) : Meaning .jsr fun s => (pushWord (s.pc - 1) s).setPc w
  | rts : Meaning .rts fun s => (popWord s).2.setPc ((popWord s).1 + 1)
  | pha : Meaning .pha fun s => push s.a s
  | pla : Meaning .pla fun s => writeA (pop s).1 (pop s).2
  | brk : Meaning .brk takeBreak

theorem ea_setP (o : Address) (s : State) (p : Byte) : o.ea (s.setP p) = o.ea s := by
  cases o <;> rfl

theorem Source.readsNoStatus (o : Source) : ReadsNoStatus o.value := by
  intro s p
  cases o with
  | imm => rfl
  | mem a => rw [Source.value, Source.value, ea_setP, memRead_setP]

/-- Every instruction completes from every state, with a meaning of its mnemonic. -/
theorem exec_meaning (i : Instr) : ∃ m, Meaning i.mnemonic m ∧ ∀ s, exec i s = .next (m s) := by
  cases i with
  | ldaImm | ldaZp | ldaZpx | ldaAbs | ldaAbx | ldaAby =>
    exact ⟨_, .writeA (n := .lda) (by decide) (Source.readsNoStatus _), fun _ => rfl⟩
  | ldxImm | ldxZp | ldxZpy | ldxAbs | ldxAby =>
    exact ⟨_, .writeX (n := .ldx) (by decide) (Source.readsNoStatus _), fun _ => rfl⟩
  | ldyImm | ldyZp | ldyZpx | ldyAbs | ldyAbx =>
    exact ⟨_, .writeY (n := .ldy) (by decide) (Source.readsNoStatus _), fun _ => rfl⟩
  | staZp | staZpx | staAbs | staAbx | staAby =>
    exact ⟨_, .store (n := .sta) (v := State.a) _ (by decide) fun _ _ => rfl, fun _ => rfl⟩
  | stxZp | stxZpy | stxAbs =>
    exact ⟨_, .store (n := .stx) (v := State.x) _ (by decide) fun _ _ => rfl, fun _ => rfl⟩
  | styZp | styZpx | styAbs =>
    exact ⟨_, .store (n := .sty) (v := State.y) _ (by decide) fun _ _ => rfl, fun _ => rfl⟩
  | adcImm | adcZp | adcZpx | adcAbs | adcAbx | adcAby => exact ⟨_, .adc _, fun _ => rfl⟩
  | andImm | andZp | andZpx | andAbs | andAbx | andAby =>
    exact ⟨_, .writeA (n := .and) (by decide) fun s p => congrArg (s.a &&& ·) (Source.readsNoStatus _ s p),
      fun _ => rfl⟩
  | tax => exact ⟨_, .writeX (v := State.a) (by decide) fun _ _ => rfl, fun _ => rfl⟩
  | tay => exact ⟨_, .writeY (v := State.a) (by decide) fun _ _ => rfl, fun _ => rfl⟩
  | txa => exact ⟨_, .writeA (v := State.x) (by decide) fun _ _ => rfl, fun _ => rfl⟩
  | tya => exact ⟨_, .writeA (v := State.y) (by decide) fun _ _ => rfl, fun _ => rfl⟩
  | inx => exact ⟨_, .writeX (v := fun s => s.x + 1) (by decide) fun _ _ => rfl, fun _ => rfl⟩
  | iny => exact ⟨_, .writeY (v := fun s => s.y + 1) (by decide) fun _ _ => rfl, fun _ => rfl⟩
  | dex => exact ⟨_, .writeX (v := fun s => s.x - 1) (by decide) fun _ _ => rfl, fun _ => rfl⟩
  | dey => exact ⟨_, .writeY (v := fun s => s.y - 1) (by decide) fun _ _ => rfl, fun _ => rfl⟩
  | jmp w => exact ⟨_, .jmp w, fun _ => rfl⟩
  | jsr w => exact ⟨_, .jsr w, fun _ => rfl⟩
  | rts => exact ⟨_, .rts, fun _ => rfl⟩
  | pha => exact ⟨_, .pha, fun _ => rfl⟩
  | pla => exact ⟨_, .pla, fun _ => rfl⟩
  | brk => exact ⟨_, .brk, exec_brk⟩

/-! ## The step -/

theorem mnemonicAtPc_of_mem {n : Mnemonic} {ms : List Mnemonic} {s : State} (h : MnemonicAtPc [n] s) (hn : n ∈ ms) :
    MnemonicAtPc ms s := by
  obtain ⟨e, he, hmem⟩ := h
  exact ⟨e, he, by rwa [List.mem_singleton.mp hmem]⟩

/-- A fetched instruction has the mnemonic at PC. -/
theorem mnemonicAtPc_of_fetch {s s1 : State} {i : Instr} (h : fetchInstr s = some (i, s1)) :
    MnemonicAtPc [i.mnemonic] s := by
  obtain ⟨e, he, rfl, -⟩ := fetchInstr_some h
  obtain ⟨-, -, hn, -⟩ := lookup_executor he (memRead s (s.pc + 1).toNat) (readWord s (s.pc + 1).toNat)
  exact ⟨e, he, by rw [hn]; exact List.mem_singleton_self _⟩

/-- A step stalls, or applies a meaning of the mnemonic at PC to the state with PC moved. -/
theorem step_meaning {s t : State} (h : step s = .next t) :
    t = s ∨ ∃ n m pc, MnemonicAtPc [n] s ∧ Meaning n m ∧ t = m (s.setPc pc) := by
  obtain ⟨-, hstall⟩ | ⟨i, s1, hfetch, hexec⟩ := step_cases h
  · exact .inl hstall
  · obtain ⟨m, hm, hrun⟩ := exec_meaning i
    obtain ⟨-, -, -, rfl⟩ := fetchInstr_some hfetch
    rw [hrun, Host.Outcome.next.injEq] at hexec
    exact .inr ⟨_, m, _, mnemonicAtPc_of_fetch hfetch, hm, hexec.symm⟩

theorem step_of_lookup_none {s : State} (h : lookup (opcodeAtPc s) = none) : step s = .next s := by
  rw [step, fetchInstr_none.mpr h]

/-- No step faults or is refused: a stall answers the state, and every instruction completes. -/
theorem step_completes (s : State) : ∃ t, step s = .next t := by
  cases hf : fetchInstr s with
  | none => exact ⟨s, step_of_lookup_none (fetchInstr_none.mp hf)⟩
  | some r =>
    obtain ⟨m, -, hrun⟩ := exec_meaning r.1
    exact ⟨m r.2, (step_of_fetch hf).trans (hrun r.2)⟩

theorem step_of_decode {s : State} {i : Instr} {rest : List Byte} (h : decode (bytesFrom s s.pc.toNat 3) = .ok i rest) :
    step s = exec i (s.setPc (s.pc + BitVec.ofNat 16 i.length)) :=
  step_of_fetch (fetchInstr_of_decode h)

/-- The entry of the first byte of a decoding in memory, which has the instruction's mnemonic and mode. -/
theorem lookup_of_decode_bytesFrom {s : State} {a : Nat} {i : Instr} {rest : List Byte}
    (h : decode (bytesFrom s a 3) = .ok i rest) :
    ∃ e, lookup (memRead s a) = some e ∧ i.mnemonic = e.mnemonic ∧ i.mode = e.mode := by
  obtain ⟨e, lo, hi, he, rfl, -⟩ := decode_cons_eq_ok_iff.mp h
  obtain ⟨-, -, hn, hmode⟩ := lookup_executor he lo (wordOf lo hi)
  exact ⟨e, he, hn, hmode⟩

/-! ## What a step returns -/

theorem stepReturn_of_lookup_none {s : State} (h : lookup (opcodeAtPc s) = none) :
    stepReturn s = ⟨.unknownOpcode (opcodeAtPc s), 0⟩ := by
  simp only [stepReturn, h]

theorem stepReturn_of_lookup_some {s : State} {e : Entry} (h : lookup (opcodeAtPc s) = some e) :
    stepReturn s = ⟨.executed, e.cycles⟩ := by
  simp only [stepReturn, h]

/-- Settles O36: the fetch agrees with the decoder, every instruction is well-formed, and the opcode has an entry. -/
theorem stepRunsTheDecodedInstruction : Obligations.StepRunsTheDecodedInstruction := by
  intro s i rest h
  obtain ⟨e, he, -, -⟩ := lookup_of_decode_bytesFrom h
  exact ⟨wellFormed i, step_of_decode h, by rw [stepReturn_of_lookup_some he]⟩

/-- The counts of R190 by mnemonic and mode (D5). -/
def baseCycles : Mnemonic → Mode → Nat
  | .sta, .abx | .sta, .aby => 5
  | .jmp, _ | .pha, _ => 3
  | .jsr, _ | .rts, _ => 6
  | .brk, _ => 7
  | .pla, _ => 4
  | _, .imm | _, .imp => 2
  | _, .zp => 3
  | _, _ => 4

theorem table_row_cycles : ∀ e ∈ instructionTable, e.cycles = baseCycles e.mnemonic e.mode := by decide

/-- Settles O7: the count is the row's, and the rows carry the base counts. -/
theorem nominalCyclesAreTheBaseCounts : Obligations.NominalCyclesAreTheBaseCounts := by
  intro s i rest h
  obtain ⟨e, he, hn, hmode⟩ := lookup_of_decode_bytesFrom h
  have hcycles : (stepReturn s).cycles = baseCycles i.mnemonic i.mode := by
    rw [stepReturn_of_lookup_some he, hn, hmode]
    exact table_row_cycles e (lookup_some he).1
  exact ⟨by rw [stepReturn_of_lookup_some he], hcycles⟩

theorem two_le_table_row_cycles : ∀ e ∈ instructionTable, 2 ≤ e.cycles := by decide

/-- Settles O38: every step completes, and what it returns is read off the lookup. -/
theorem noStepEverFaults : Obligations.NoStepEverFaults := by
  intro s
  refine ⟨step_completes s, ?_⟩
  cases he : lookup (opcodeAtPc s) with
  | none =>
    rw [stepReturn_of_lookup_none he]
    exact .inr ⟨populated_eq_false_iff.mpr he, rfl, rfl⟩
  | some e =>
    rw [stepReturn_of_lookup_some he]
    exact .inl ⟨by rw [populated, he]; rfl, rfl, two_le_table_row_cycles e (lookup_some he).1⟩

/-- A stalled state stays: each further step of a run answers it again (R81). -/
theorem run_of_step_self {s : State} (h : step s = .next s) (fuel : Nat) : core.run fuel s = .next s := by
  induction fuel with
  | zero => rfl
  | succ fuel ih => exact (run_succ_of_next fuel h).trans ih

/-- Settles O37: the stalled step answers its own state, so a run of any length ends in it. -/
theorem anUnpopulatedByteStallsTheRunForGood : Obligations.AnUnpopulatedByteStallsTheRunForGood := by
  intro s fuel hstalled
  have hnone : lookup (opcodeAtPc s) = none := populated_eq_false_iff.mp hstalled
  have hstep : step s = .next s := step_of_lookup_none hnone
  have hreturn : stepReturn s = ⟨.unknownOpcode (opcodeAtPc s), 0⟩ := stepReturn_of_lookup_none hnone
  have hrun := run_of_step_self hstep fuel
  exact ⟨hstep, hreturn, by rw [hreturn]; rfl, hrun, s, hrun, rfl, rfl, hstalled⟩

/-! ## The invariant -/

/-- Every meaning keeps the memory canonical: it writes by stores and pushes only. -/
theorem Meaning.wf {n : Mnemonic} {m : State → State} (hm : Meaning n m) {s : State} (hs : Memory.wf s.mem = true) :
    Memory.wf (m s).mem = true := by
  cases hm with
  | writeA | writeX | writeY | adc | jmp | rts | pla => exact hs
  | store o => exact store_wf o _ hs
  | jsr => exact pushWord_wf _ hs
  | pha => exact push_wf _ hs
  | brk => exact takeBreak_wf hs

/-- Settles O40: a stall keeps the state, and a meaning keeps the memory canonical. -/
theorem everyStepKeepsTheMemoryCanonical : Obligations.EveryStepKeepsTheMemoryCanonical := by
  intro s t hs h
  obtain rfl | ⟨n, m, pc, -, hm, rfl⟩ := step_meaning h
  · exact hs
  · exact hm.wf (s := s.setPc pc) hs

/-! ## Writers -/

/-- Only these mnemonics have a meaning that changes what `get` reads of the state. -/
def WrittenOnlyBy {α : Type} (ms : List Mnemonic) (get : State → α) : Prop :=
  ∀ {n m}, Meaning n m → n ∈ ms ∨ ∀ s, get (m s) = get s

/-- A step that changes what `get` reads has one of the writers at PC, where `get` does not read PC. -/
theorem mnemonicAtPc_of_changed {α : Type} {ms : List Mnemonic} {get : State → α} (hw : WrittenOnlyBy ms get)
    (hpc : ∀ s v, get (s.setPc v) = get s) {s t : State} (h : step s = .next t) (hne : get t ≠ get s) :
    MnemonicAtPc ms s := by
  obtain rfl | ⟨n, m, pc, hn, hm, rfl⟩ := step_meaning h
  · exact absurd rfl hne
  · obtain hmem | hkeeps := hw hm
    · exact mnemonicAtPc_of_mem hn hmem
    · exact absurd ((hkeeps _).trans (hpc s pc)) hne

theorem mem_of_subset {n : Mnemonic} {ms ns : List Mnemonic} (hn : n ∈ ms) (hsub : ms ⊆ ns) : n ∈ ns := hsub hn

theorem sp_writtenOnlyBy : WrittenOnlyBy [.jsr, .rts, .pha, .pla, .brk] State.sp := by
  intro n m hm
  cases hm with
  | jsr | rts | pha | pla | brk => exact .inl (by decide)
  | writeA | writeX | writeY | adc | store | jmp => exact .inr fun _ => rfl

/-- Settles O42: the shapes that move SP are the five stack mnemonics'. -/
theorem onlyStackInstructionsMoveTheStackPointer : Obligations.OnlyStackInstructionsMoveTheStackPointer :=
  fun _ _ h hne => mnemonicAtPc_of_changed sp_writtenOnlyBy setPc_sp h hne

@[simp] theorem pushWord_a (w : Word) (s : State) : (pushWord w s).a = s.a := by
  rw [pushWord, push_a, push_a]

@[simp] theorem pushWord_x (w : Word) (s : State) : (pushWord w s).x = s.x := by
  rw [pushWord, push_x, push_x]

@[simp] theorem pushWord_y (w : Word) (s : State) : (pushWord w s).y = s.y := by
  rw [pushWord, push_y, push_y]


theorem takeBreak_a (s : State) : (takeBreak s).a = s.a := by
  obtain ⟨ha, -⟩ := takeBreak_registers s
  exact ha

theorem takeBreak_x (s : State) : (takeBreak s).x = s.x := by
  obtain ⟨-, hx, -⟩ := takeBreak_registers s
  exact hx

theorem takeBreak_y (s : State) : (takeBreak s).y = s.y := by
  obtain ⟨-, -, hy, -⟩ := takeBreak_registers s
  exact hy

theorem a_writtenOnlyBy : WrittenOnlyBy [.lda, .adc, .and, .txa, .tya, .pla] State.a := by
  intro n m hm
  cases hm with
  | writeA hn => exact .inl (mem_of_subset hn (by decide))
  | adc | pla => exact .inl (by decide)
  | writeX | writeY | store | jmp | rts | pha => exact .inr fun _ => rfl
  | jsr => exact .inr fun s => by rw [setPc_a, pushWord_a]
  | brk => exact .inr takeBreak_a

theorem x_writtenOnlyBy : WrittenOnlyBy [.ldx, .tax, .inx, .dex] State.x := by
  intro n m hm
  cases hm with
  | writeX hn => exact .inl hn
  | writeA | writeY | adc | store | jmp | rts | pha | pla => exact .inr fun _ => rfl
  | jsr => exact .inr fun s => by rw [setPc_x, pushWord_x]
  | brk => exact .inr takeBreak_x

theorem y_writtenOnlyBy : WrittenOnlyBy [.ldy, .tay, .iny, .dey] State.y := by
  intro n m hm
  cases hm with
  | writeY hn => exact .inl hn
  | writeA | writeX | adc | store | jmp | rts | pha | pla => exact .inr fun _ => rfl
  | jsr => exact .inr fun s => by rw [setPc_y, pushWord_y]
  | brk => exact .inr takeBreak_y

/-- Settles O45: the shapes that write A, X or Y name their mnemonics. -/
theorem indexAndAccumulatorWritersAreTheListedOnes : Obligations.IndexAndAccumulatorWritersAreTheListedOnes :=
  fun _ _ h => ⟨mnemonicAtPc_of_changed a_writtenOnlyBy setPc_a h, mnemonicAtPc_of_changed x_writtenOnlyBy setPc_x h,
    mnemonicAtPc_of_changed y_writtenOnlyBy setPc_y h⟩

/-! ## Writers of memory -/

theorem memRead_writtenOnlyBy (k : Nat) :
    WrittenOnlyBy ([Mnemonic.sta, .stx, .sty] ++ [Mnemonic.jsr, .pha, .brk]) fun s => memRead s k := by
  intro n m hm
  cases hm with
  | store _ hn => exact .inl (List.mem_append_left _ hn)
  | jsr | pha | brk => exact .inl (by decide)
  | writeA | writeX | writeY | adc | jmp | rts | pla => exact .inr fun _ => rfl

/-- An address outside page 1 is no stack slot (R97). -/
theorem maskAddr_ne_stackAddr {k : Nat} (hk : ¬ (0x0100 ≤ maskAddr k ∧ maskAddr k ≤ 0x01FF)) (q : Byte) :
    maskAddr k ≠ stackAddr q := by
  intro h
  rw [h] at hk
  exact hk (stackAddr_range q)

theorem memRead_writtenOnlyBy_outside_stack {k : Nat} (hk : ¬ (0x0100 ≤ maskAddr k ∧ maskAddr k ≤ 0x01FF)) :
    WrittenOnlyBy [.sta, .stx, .sty] fun s => memRead s k := by
  have hslot := maskAddr_ne_stackAddr hk
  have hpushWord (w : Word) (s : State) : memRead (pushWord w s) k = memRead s k := by
    rw [memRead_pushWord, if_neg (hslot _), if_neg (hslot _)]
  intro n m hm
  cases hm with
  | store _ hn => exact .inl hn
  | writeA | writeX | writeY | adc | jmp | rts | pla => exact .inr fun _ => rfl
  | jsr => exact .inr fun s => (memRead_setPc _ _ k).trans (hpushWord (s.pc - 1) s)
  | pha => exact .inr fun s => (memRead_push s.a s k).trans (if_neg (hslot _))
  | brk => exact .inr fun s => (memRead_takeBreak s k).trans ((if_neg (hslot _)).trans (hpushWord (s.pc + 1) s))

theorem mnemonicAtPc_append {ms ns : List Mnemonic} {s : State} (h : MnemonicAtPc (ms ++ ns) s) :
    MnemonicAtPc ms s ∨ MnemonicAtPc ns s := by
  obtain ⟨e, he, hmem⟩ := h
  exact (List.mem_append.mp hmem).imp (fun hl => ⟨e, he, hl⟩) fun hr => ⟨e, he, hr⟩

/-- Settles O43: the writers are the stores and the pushes, and outside the stack page the stores alone. -/
theorem onlyStoresAndPushesWriteMemory : Obligations.OnlyStoresAndPushesWriteMemory := by
  intro s t k h hne
  have hpc (s : State) (v : Word) : memRead (s.setPc v) k = memRead s k := memRead_setPc s v k
  by_cases hk : 0x0100 ≤ maskAddr k ∧ maskAddr k ≤ 0x01FF
  · have hwriter := mnemonicAtPc_of_changed (get := (memRead · k)) (memRead_writtenOnlyBy k) hpc h hne
    exact (mnemonicAtPc_append hwriter).imp_right fun hpush => ⟨hpush, hk⟩
  · exact .inl (mnemonicAtPc_of_changed (get := (memRead · k)) (memRead_writtenOnlyBy_outside_stack hk) hpc h hne)

/-! ## Writers of the flags -/

theorem not_mnemonicAtPc_nil (s : State) : ¬ MnemonicAtPc [] s := by
  rintro ⟨e, -, hmem⟩
  exact List.not_mem_nil hmem

/-- The flags that UpdateNZ writes, and all others but I, change at the writers of a register and at ADC only. -/
theorem flag_writtenOnlyBy_registerWriters {f : Flag} (hi : f ≠ .i) :
    WrittenOnlyBy [.lda, .ldx, .ldy, .adc, .and, .tax, .tay, .txa, .tya, .inx, .iny, .dex, .dey, .pla]
      fun s => s.flag f := by
  intro n m hm
  cases hm with
  | writeA hn | writeX hn | writeY hn => exact .inl (mem_of_subset hn (by decide))
  | adc | pla => exact .inl (by decide)
  | store | jmp | rts | pha => exact .inr fun _ => rfl
  | jsr => exact .inr fun s => (flag_setPc _ _ f).trans (flag_pushWord (s.pc - 1) s f)
  | brk => exact .inr fun s => (flag_takeBreak s f).trans (if_neg hi)

/-- A flag other than Z and N changes only where ADC writes it and, if it is I, where BRK does. -/
theorem flag_writtenOnlyBy {f : Flag} {ms : List Mnemonic} (hzn : f ∉ [Flag.z, .n])
    (hadc : .adc ∈ ms ∨ ∀ o s, (addWithCarry o s).flag f = s.flag f) (hbrk : .brk ∈ ms ∨ f ≠ .i) :
    WrittenOnlyBy ms fun s => s.flag f := by
  intro n m hm
  cases hm with
  | writeA | writeX | writeY | pla => exact .inr fun _ => sameFlagsExcept_updateNZ _ _ f hzn
  | adc o => exact hadc.imp_right fun h => h o
  | store | jmp | rts | pha => exact .inr fun _ => rfl
  | jsr => exact .inr fun s => (flag_setPc _ _ f).trans (flag_pushWord (s.pc - 1) s f)
  | brk => exact hbrk.imp_right fun hi s => (flag_takeBreak s f).trans (if_neg hi)

/-- ADC leaves I, D, B and bit 5 (R110). -/
theorem flag_addWithCarry_unused {f : Flag} (hf : f ∈ [Flag.i, .d, .b, .bit5]) (o : Source) (s : State) :
    (addWithCarry o s).flag f = s.flag f :=
  sameFlagsExcept_addWithCarry o s f (by revert f; decide)

theorem flag_i_writtenOnlyBy : WrittenOnlyBy [.brk] fun s => s.flag .i :=
  flag_writtenOnlyBy (by decide) (.inr (flag_addWithCarry_unused (by decide))) (.inl (List.mem_singleton_self _))

theorem flag_writtenOnlyBy_none {f : Flag} (hf : f ∈ [Flag.d, .b, .bit5]) : WrittenOnlyBy [] fun s => s.flag f := by
  obtain ⟨hzn, hunused, hi⟩ : f ∉ [Flag.z, .n] ∧ f ∈ [Flag.i, .d, .b, .bit5] ∧ f ≠ .i := by
    revert f; decide
  exact flag_writtenOnlyBy hzn (.inr (flag_addWithCarry_unused hunused)) (.inr hi)

theorem Meaning.eq_takeBreak {m : State → State} (hm : Meaning .brk m) : m = takeBreak := by
  cases hm with
  | brk => rfl
  | writeA hn | writeX hn | writeY hn | store _ hn => exact absurd hn (by decide)

/-- I changes at BRK only, which sets it. -/
theorem flag_i_of_step {s t : State} (h : step s = .next t) (hne : t.flag .i ≠ s.flag .i) :
    MnemonicAtPc [.brk] s ∧ t.flag .i = true := by
  obtain rfl | ⟨n, m, pc, hn, hm, rfl⟩ := step_meaning h
  · exact absurd rfl hne
  · obtain hbrk | hkeeps := flag_i_writtenOnlyBy hm
    · obtain rfl := List.mem_singleton.mp hbrk
      exact ⟨hn, by rw [hm.eq_takeBreak, flag_takeBreak, if_pos rfl]⟩
    · exact absurd (hkeeps _) hne

/-- Settles O44: the summary is that of the shapes; no mnemonic at all writes D, B or bit 5. -/
theorem flagsChangeOnlyWhereTheSummaryTableSays : Obligations.FlagsChangeOnlyWhereTheSummaryTableSays := by
  intro s t h
  have changed {f : Flag} {ms : List Mnemonic} (hw : WrittenOnlyBy ms fun s => s.flag f) (hne : t.flag f ≠ s.flag f) :
      MnemonicAtPc ms s := mnemonicAtPc_of_changed (get := (State.flag · f)) hw (fun s v => flag_setPc s v f) h hne
  have adc {f : Flag} (hzn : f ∉ [Flag.z, .n]) (hi : f ≠ .i) : t.flag f ≠ s.flag f → MnemonicAtPc [.adc] s :=
    changed (flag_writtenOnlyBy hzn (.inl (List.mem_singleton_self _)) (.inr hi))
  have never {f : Flag} (hf : f ∈ [Flag.d, .b, .bit5]) : t.flag f = s.flag f := by
    by_contra hne
    exact not_mnemonicAtPc_nil s (changed (flag_writtenOnlyBy_none hf) hne)
  have registerWriter {f : Flag} (hi : f ≠ .i) := changed (flag_writtenOnlyBy_registerWriters hi)
  exact ⟨adc (by decide) (by decide), adc (by decide) (by decide),
    fun hzn => hzn.elim (registerWriter (by decide)) (registerWriter (by decide)), flag_i_of_step h,
    never (by decide), never (by decide), never (by decide)⟩

/-! ## Sequential advance -/

theorem pc_writtenOnlyBy : WrittenOnlyBy [.jmp, .jsr, .rts, .brk] State.pc := by
  intro n m hm
  cases hm with
  | jmp | jsr | rts | brk => exact .inl (by decide)
  | writeA | writeX | writeY | adc | store | pha | pla => exact .inr fun _ => rfl

/-- Settles O46: the fetch moves PC past the instruction, and only the control transfers move it again. -/
theorem sequentialAdvanceUnlessAControlTransfer : Obligations.SequentialAdvanceUnlessAControlTransfer := by
  intro s i rest h hn
  obtain ⟨m, hm, hrun⟩ := exec_meaning i
  refine ⟨_, (step_of_decode h).trans (hrun _), ?_⟩
  rw [(pc_writtenOnlyBy hm).resolve_left hn, setPc_pc, BitVec.toNat_add, BitVec.toNat_ofNat, Nat.add_mod_mod,
    length_encode]

end Sys2Proof.Machine
end

section
/-! What the status register influences (10_state.md section 2). Of P a meaning reads C only, and BRK copies P to the
stack; so two states that differ in P with one C stay together, except for the copy. -/

namespace Sys2Proof.Machine

/-! ## Two statuses side by side -/

/-- Of a status `p` that became `p'` and a status `q` that became `q'`: a flag on which `p` and `q` agree is one on which
`p'` and `q'` agree, and I, D, B and bit 5 of `q` stay. -/
def StatusTracks (p q p' q' : Byte) : Prop :=
  (∀ f, getFlag f q = getFlag f p → getFlag f q' = getFlag f p') ∧
    ∀ f ∈ [Flag.i, .d, .b, .bit5], getFlag f q' = getFlag f q

theorem statusTracks_refl (p q : Byte) : StatusTracks p q p q := ⟨fun _ h => h, fun _ _ => rfl⟩

theorem statusTracks_nzStatus (v p q : Byte) : StatusTracks p q (nzStatus v p) (nzStatus v q) := by
  constructor
  · intro f h
    rw [getFlag_nzStatus, getFlag_nzStatus, h]
  · intro f hf
    obtain ⟨hn, hz⟩ : f ≠ .n ∧ f ≠ .z := by revert f; decide
    rw [getFlag_nzStatus, if_neg hn, if_neg hz]

theorem statusTracks_adcStatus (target : Config.AdcBit6Target) (sum : Nat) (p q : Byte) :
    StatusTracks p q (adcStatus target sum p) (adcStatus target sum q) := by
  constructor
  · intro f h
    rw [getFlag_adcStatus, getFlag_adcStatus, h]
  · intro f hf
    obtain ⟨hn, hz, hc, hv⟩ : f ≠ .n ∧ f ≠ .z ∧ f ≠ .c ∧ f ≠ .v := by revert f; decide
    rw [getFlag_adcStatus, if_neg hn, if_neg hz, if_neg hc, if_neg fun h => hv h.1]

/-- Where the flag set in `q` is unused, what follows is that flag set in what follows from `p`. -/
theorem StatusTracks.eq_setFlag {f : Flag} (hf : f ∈ [Flag.i, .d, .b, .bit5]) {on : Bool} {p p' q' : Byte}
    (h : StatusTracks p (setFlag f on p) p' q') : q' = setFlag f on p' := by
  obtain ⟨hagree, hkeep⟩ := h
  apply status_ext
  intro g
  by_cases hg : g = f
  · subst hg
    rw [hkeep g hf, getFlag_setFlag, getFlag_setFlag, if_pos rfl, if_pos rfl]
  · rw [getFlag_setFlag, if_neg hg]
    exact hagree g (by rw [getFlag_setFlag, if_neg hg])

/-! ## Meanings but BRK -/

theorem store_setP (o : Address) (v : Byte) (s : State) (p : Byte) :
    store o v (s.setP p) = (store o v s).setP p := by
  rw [store, ea_setP]
  rfl

/-- From two states that differ in P, with one C, a meaning other than BRK's gives states that differ in P alone. -/
theorem Meaning.apply_setP {n : Mnemonic} {m : State → State} (hm : Meaning n m) (hn : n ≠ .brk) {s : State}
    {p : Byte} (hc : getFlag .c p = s.flag .c) : ∃ q, m (s.setP p) = (m s).setP q ∧ StatusTracks s.p p (m s).p q := by
  cases hm with
  | @writeA _ v _ hv =>
    exact ⟨_, congrArg (Machine.writeA · (s.setP p)) (hv s p), statusTracks_nzStatus (v s) s.p p⟩
  | @writeX _ v _ hv =>
    exact ⟨_, congrArg (Machine.writeX · (s.setP p)) (hv s p), statusTracks_nzStatus (v s) s.p p⟩
  | @writeY _ v _ hv =>
    exact ⟨_, congrArg (Machine.writeY · (s.setP p)) (hv s p), statusTracks_nzStatus (v s) s.p p⟩
  | adc o =>
    refine ⟨_, ?_, statusTracks_adcStatus Config.adcBit6Target (adcSum s.a (o.value s) (s.flag .c)) s.p p⟩
    simp only [addWithCarry, Source.readsNoStatus o s p, flag_setP, hc, setP_a, setP_p]
    rfl
  | @store _ v o _ hv =>
    exact ⟨p, (congrArg (Machine.store o · (s.setP p)) (hv s p)).trans (store_setP o (v s) s p),
      statusTracks_refl s.p p⟩
  | jmp | jsr | rts | pha => exact ⟨p, rfl, statusTracks_refl s.p p⟩
  | pla => exact ⟨_, rfl, statusTracks_nzStatus _ s.p p⟩
  | brk => exact absurd rfl hn

/-! ## BRK -/

/-- The registers BRK leaves depend on P in P alone: the vector word lies above the stack page. -/
theorem sameRegistersExcept_takeBreak_setP (s : State) (p : Byte) :
    SameRegistersExcept [.p] (takeBreak s) (takeBreak (s.setP p)) := by
  have hpc : (takeBreak (s.setP p)).pc = (takeBreak s).pc := by
    rw [takeBreak_pc, takeBreak_pc]
    rfl
  intro r hr
  cases r with
  | a => rw [readReg, readReg, takeBreak_a, takeBreak_a, setP_a]
  | x => rw [readReg, readReg, takeBreak_x, takeBreak_x, setP_x]
  | y => rw [readReg, readReg, takeBreak_y, takeBreak_y, setP_y]
  | sp => rw [readReg, readReg, takeBreak_sp_toNat, takeBreak_sp_toNat, setP_sp]
  | pc => exact congrArg BitVec.toNat hpc
  | p => exact absurd (List.mem_singleton_self Reg.p) hr

/-- The memory BRK leaves depends on P in the pushed copy alone. -/
theorem sameMemoryExcept_takeBreak_setP (s : State) (p : Byte) :
    SameMemoryExcept [stackAddr (s.sp - 2)] (takeBreak s) (takeBreak (s.setP p)) := by
  intro k hk
  have hcopy : maskAddr k ≠ stackAddr (s.sp - 2) := by simpa using hk
  rw [memRead_takeBreak, memRead_takeBreak, setP_sp, sp_sub_one_sub_one, if_neg hcopy, if_neg hcopy, memRead_pushWord,
    memRead_pushWord, setP_sp, setP_pc, memRead_setP]

/-! ## One instruction -/

theorem mnemonic_ne_brk {i : Instr} (hi : i ≠ .brk) : i.mnemonic ≠ .brk := by
  cases i with
  | brk => exact absurd rfl hi
  | _ => exact nofun

/-- Settles O47: setting an unused flag is a write of P that leaves C, so what a meaning makes of it is the flag set
after; BRK shows it in the copy it pushes. -/
theorem unusedStatusBitsInfluenceOnlyThemselvesAndTheCopyBrkPushes :
    Obligations.UnusedStatusBitsInfluenceOnlyThemselvesAndTheCopyBrkPushes := by
  intro s f on hf
  constructor
  · intro i hi
    have hne : Flag.c ≠ f := by revert f; decide
    have hc : getFlag .c (setFlag f on s.p) = s.flag .c := by rw [getFlag_setFlag, if_neg hne, State.flag]
    obtain ⟨m, hm, hrun⟩ := exec_meaning i
    obtain ⟨q, hq, htracks⟩ := hm.apply_setP (mnemonic_ne_brk hi) hc
    refine ⟨m s, hrun s, (hrun _).trans (congrArg Host.Outcome.next (hq.trans ?_))⟩
    rw [htracks.eq_setFlag hf]
    rfl
  · obtain ⟨-, -, hcopy⟩ := memRead_takeBreak_slots s
    obtain ⟨-, -, hcopy'⟩ := memRead_takeBreak_slots (s.setP (setFlag f on s.p))
    refine ⟨_, _, exec_brk s, exec_brk _, sameRegistersExcept_takeBreak_setP s _, ?flags, flag_takeBreak s .i,
      flag_takeBreak _ .i, sameMemoryExcept_takeBreak_setP s _, hcopy, hcopy'⟩
    case flags =>
      intro g hg
      have hgf : g ≠ f := by simpa using hg
      have hflag : (s.setFlag f on).flag g = s.flag g := (getFlag_setFlag f g on s.p).trans (if_neg hgf)
      rw [flag_takeBreak, flag_takeBreak, hflag]

/-- Settles O48: a meaning other than BRK's leaves states that differ in P alone, and BRK's copy has its one slot. -/
theorem ofTheStatusOnlyCarryInfluencesTheRestButForTheCopyBrkPushes :
    Obligations.OfTheStatusOnlyCarryInfluencesTheRestButForTheCopyBrkPushes := by
  intro i s p hc
  by_cases hi : i = .brk
  · subst hi
    refine ⟨_, _, exec_brk s, exec_brk (s.setP p), sameRegistersExcept_takeBreak_setP s p, ?_, fun h => absurd rfl h,
      fun _ => sameMemoryExcept_takeBreak_setP s p⟩
    rw [flag_takeBreak, flag_takeBreak, flag_setP, hc]
  · obtain ⟨m, hm, hrun⟩ := exec_meaning i
    obtain ⟨q, hq, hagree, -⟩ := hm.apply_setP (mnemonic_ne_brk hi) hc
    exact ⟨m s, (m s).setP q, hrun s, (hrun (s.setP p)).trans (congrArg _ hq), sameRegistersExcept_setP _ q,
      hagree .c hc, fun _ => rfl, fun h => absurd h hi⟩

/-! ## Runs -/

/-- One step from two states that differ in P, with one C and no BRK at PC, gives two such states. -/
theorem step_setP {s : State} {p : Byte} (hc : getFlag .c p = s.flag .c) (hbrk : ¬ MnemonicAtPc [.brk] s) :
    ∃ t q, step s = .next t ∧ step (s.setP p) = .next (t.setP q) ∧ getFlag .c q = t.flag .c := by
  cases hf : fetchInstr s with
  | none =>
    have hnone : lookup (opcodeAtPc s) = none := fetchInstr_none.mp hf
    exact ⟨s, p, step_of_lookup_none hnone, step_of_lookup_none hnone, hc⟩
  | some r =>
    obtain ⟨i, s1⟩ := r
    have hf' : fetchInstr (s.setP p) = some (i, s1.setP p) := by rw [fetchInstr_setP, hf]; rfl
    have hi : i.mnemonic ≠ .brk := fun h => hbrk (h ▸ mnemonicAtPc_of_fetch hf)
    have hc1 : getFlag .c p = s1.flag .c := by
      obtain ⟨-, -, -, rfl⟩ := fetchInstr_some hf
      exact hc
    obtain ⟨m, hm, hrun⟩ := exec_meaning i
    obtain ⟨q, hq, hagree, -⟩ := hm.apply_setP hi hc1
    exact ⟨m s1, q, (step_of_fetch hf).trans (hrun s1), (step_of_fetch hf').trans ((hrun _).trans (congrArg _ hq)),
      hagree .c hc1⟩

/-- The two runs differ in P alone, with one C, as long as no BRK is reached. -/
theorem run_setP (n : Nat) {s : State} {p : Byte} (hc : getFlag .c p = s.flag .c)
    (hbrk : ∀ k, k < n → ∀ v : State, core.run k s = .next v → ¬ MnemonicAtPc [.brk] v) :
    ∃ (t : State) (q : Byte), core.run n s = .next t ∧ core.run n (s.setP p) = .next (t.setP q) ∧
      getFlag .c q = t.flag .c := by
  induction n generalizing s p with
  | zero => exact ⟨s, p, rfl, rfl, hc⟩
  | succ n ih =>
    obtain ⟨t, q, hst, hsu, hcq⟩ := step_setP hc (hbrk 0 (Nat.succ_pos n) s rfl)
    rw [run_succ_of_next n hst, run_succ_of_next n hsu]
    exact ih hcq fun k hk v hv => hbrk (k + 1) (Nat.succ_lt_succ hk) v ((run_succ_of_next k hst).trans hv)

/-- Settles O60: the states after `n` steps differ in P alone. -/
theorem runsThatDifferOnlyInPStayTogetherUntilABreak : Obligations.RunsThatDifferOnlyInPStayTogetherUntilABreak := by
  intro n s p hc hbrk
  obtain ⟨t, q, ht, hu, hcq⟩ := run_setP n hc hbrk
  exact ⟨t, t.setP q, ht, hu, sameRegistersExcept_setP t q, hcq, rfl⟩

end Sys2Proof.Machine
end

section
/-! Statements about an instruction or two in sequence: the operand addresses, ADC's decided flag, JMP, the subroutine
pair JSR and RTS (44_control.md), what a break handler can do instead of a return (45_stack_brk.md R143), and that a
store is seen by the next fetch (20_memory.md section 5). -/

namespace Sys2Proof.Machine

/-! ## Operands and flags -/

/-- Settles O11: byte sums wrap, word sums do not, and the access reduces its address. -/
theorem effectiveAddressesOfTheModes : Obligations.EffectiveAddressesOfTheModes := by
  intro s b w
  have hw := w.isLt
  have hx := s.x.isLt
  have hy := s.y.isLt
  refine ⟨rfl, BitVec.toNat_add b s.x, BitVec.toNat_add b s.y, rfl, rfl, rfl, ?abx, ?aby, rfl,
    fun o => (memRead_maskAddr s (o.ea s)).symm⟩
  case abx => rw [Address.ea]; omega
  case aby => rw [Address.ea]; omega

/-- Settles O13: the sum is evaluated at the 256 values of P. -/
theorem statusByteIsTheSumOfItsFlagMasks : Obligations.StatusByteIsTheSumOfItsFlagMasks := by
  unfold Obligations.StatusByteIsTheSumOfItsFlagMasks
  decide +kernel

/-- Bit 6 of the sum is bit 6 of the byte that A takes. -/
theorem flag_v_addWithCarry_eq_bit6 (o : Source) (s : State) :
    (addWithCarry o s).flag .v = (addWithCarry o s).a.getLsbD 6 := by
  have hdecided : Config.adcBit6Target = .v := rfl
  rw [flag_v_addWithCarry, if_pos hdecided, addWithCarry_a, BitVec.getLsbD_ofNat, Nat.testBit_eq_decide_div_mod_eq]
  rfl

/-- Settles O24: V is bit 6 of A, which the two sums of R110 show. -/
theorem adcWritesOverflowFromBitSix : Obligations.AdcWritesOverflowFromBitSix :=
  ⟨rfl, fun s m => ⟨addWithCarry (.imm m) s, rfl, flag_v_addWithCarry_eq_bit6 (.imm m) s⟩,
    ⟨_, rfl, flag_v_addWithCarry_eq_bit6 (.imm 0x50) _⟩, ⟨_, rfl, flag_v_addWithCarry_eq_bit6 (.imm 0x01) _⟩⟩

/-! ## JMP -/

theorem exec_jmp (w : Word) (s : State) : exec (.jmp w) s = .next (s.setPc w) := rfl

/-- Settles O28: JMP is a write of PC, and at 0x4C the decoder reads JMP with the word after the opcode. -/
theorem jmpSetsPcToItsOperandWord : Obligations.JmpSetsPcToItsOperandWord := by
  constructor
  · intro s w
    exact ⟨_, exec_jmp w s, rfl, sameRegistersExcept_setPc s w, memRead_setPc s w⟩
  · intro s hop
    let w := readWord s (s.pc.toNat + 1)
    have hrow : (lookup (opcodeAtPc s)).map Entry.executor = some (.w16 .jmp) := by rw [hop]; rfl
    have hdecode : decode (bytesFrom s s.pc.toNat 3) = .ok (.jmp w) [] := decode_w16 hrow _ _ []
    exact ⟨s.setPc w, step_of_decode hdecode, wordOf_toNat _ _, sameRegistersExcept_setPc s w, memRead_setPc s w⟩

/-! ## JSR, then RTS -/

/-- A word pop undoes a word push: it returns the word, and SP is as before the push. -/
theorem popWord_pushWord (w : Word) (s : State) :
    popWord (pushWord w s) = (w, (pushWord w s).setSp s.sp) := by
  obtain ⟨-, -, -, hsp, -, -⟩ := pushWord_registers w s
  have hlow : (pushWord w s).sp + 1 = s.sp - 1 := by rw [hsp, BitVec.sub_add_cancel]
  have hhigh : s.sp - 1 + 1 = s.sp := BitVec.sub_add_cancel s.sp 1
  rw [popWord_eq, hlow, hhigh, memRead_pushWord_low, memRead_pushWord_high, wordOf_low_high]

/-- An opcode byte in format F-IMP decodes whatever follows it (R62). -/
theorem decode_bytesFrom_imp {s : State} {i : Instr} (h : (lookup (opcodeAtPc s)).map Entry.executor = some (.imp i)) :
    ∃ rest, decode (bytesFrom s s.pc.toNat 3) = .ok i rest := ⟨_, decode_imp h _⟩

theorem setPc_setPc (s : State) (v w : Word) : (s.setPc v).setPc w = s.setPc w := rfl

/-- RTS from the state a JSR leaves, wherever PC has gone since, pops the pushed address. -/
theorem exec_rts_after_jsr (v w : Word) (s : State) :
    exec .rts ((pushWord v s).setPc w) = .next (((pushWord v s).setSp s.sp).setPc (v + 1)) := by
  have hpop : popWord ((pushWord v s).setPc w) = (v, ((pushWord v s).setSp s.sp).setPc w) :=
    congrArg (fun r => (r.1, r.2.setPc w)) (popWord_pushWord v s)
  have hexec (u : State) : exec .rts u = .next ((popWord u).2.setPc ((popWord u).1 + 1)) := rfl
  rw [hexec, hpop, setPc_setPc]

/-- A word push and then SP put back leave every register as before. -/
theorem sameRegistersExcept_pushWord_setSp (w : Word) (s : State) :
    SameRegistersExcept [] s ((pushWord w s).setSp s.sp) := by
  have hothers : SameRegistersExcept [.sp] s ((pushWord w s).setSp s.sp) :=
    sameRegistersExcept_trans (sameRegistersExcept_pushWord w s) (sameRegistersExcept_setSp _ _) (List.Subset.refl _)
      (List.Subset.refl _)
  intro r _
  by_cases hr : r = .sp
  · subst hr
    exact congrArg BitVec.toNat (setSp_sp (pushWord w s) s.sp)
  · exact hothers r (by simpa using hr)

/-- Settles O34: the pop returns the address JSR pushed, its last byte's, and 1 is added. -/
theorem rtsAfterJsrReturnsPastTheJsr : Obligations.RtsAfterJsrReturnsPastTheJsr := by
  intro s w rest h
  refine ⟨_, (step_of_decode h).trans (exec_jsr w _), setPc_pc _ w, fun hop => ?_⟩
  obtain ⟨rest', hrts⟩ := decode_bytesFrom_imp (i := .rts) (by rw [hop]; rfl)
  have hstep := step_of_decode hrts
  rw [setPc_setPc, exec_rts_after_jsr] at hstep
  refine ⟨_, hstep, ?pc, ?registers⟩
  case pc =>
    rw [setPc_pc, setPc_pc, BitVec.sub_add_cancel, BitVec.toNat_add]
    rfl
  case registers =>
    exact sameRegistersExcept_trans (sameRegistersExcept_setPc s _)
      (sameRegistersExcept_trans (sameRegistersExcept_pushWord_setSp _ _) (sameRegistersExcept_setPc _ _)
        (List.nil_subset _) (List.Subset.refl _))
      (List.Subset.refl _) (List.Subset.refl _)

/-! ## Leaving a break handler -/

/-- The three slots of BRK as the pops of a handler reach them, from SP up. -/
theorem memRead_takeBreak_above_sp (s : State) :
    memRead (takeBreak s) (stackAddr ((takeBreak s).sp + 1)) = brkStatusCopy s.p ∧
      memRead (takeBreak s) (stackAddr ((takeBreak s).sp + 2)) = lowByte (s.pc + 1) ∧
      memRead (takeBreak s) (stackAddr ((takeBreak s).sp + 3)) = highByte (s.pc + 1) := by
  obtain ⟨-, -, -, hsp, -⟩ := takeBreak_registers s
  obtain ⟨hhigh, hlow, hstatus⟩ := memRead_takeBreak_slots s
  have hslot (p : Byte) : p - 1 - 1 - 1 + 1 = p - 2 ∧ p - 1 - 1 - 1 + 2 = p - 1 ∧ p - 1 - 1 - 1 + 3 = p := by
    revert p; decide
  obtain ⟨h1, h2, h3⟩ := hslot s.sp
  rw [hsp, h1, h2, h3]
  exact ⟨hstatus, hlow, hhigh⟩

/-- Settles O35: PLA takes the status copy, so RTS takes the return address; without PLA it takes one slot lower. -/
theorem plaThenRtsLeavesABreakHandlerOneByteFurther :
    Obligations.PlaThenRtsLeavesABreakHandlerOneByteFurther := by
  intro s
  obtain ⟨hstatus, hlow, hhigh⟩ := memRead_takeBreak_above_sp s
  obtain ⟨-, -, -, hsp, -⟩ := takeBreak_registers s
  refine ⟨_, exec_brk s, ⟨_, _, exec_pla _, exec_rts _, ?pc, ?sp, ?a, ?iSet⟩, _, exec_rts _, ?direct⟩
  case pc =>
    have h2 : (takeBreak s).sp + 1 + 1 = (takeBreak s).sp + 2 := BitVec.add_assoc _ 1 1
    have h3 : (takeBreak s).sp + 1 + 2 = (takeBreak s).sp + 3 := BitVec.add_assoc _ 1 2
    rw [setPc_pc, writeA_sp, setSp_sp, memRead_writeA, memRead_writeA, memRead_setSp, memRead_setSp, h2, h3, hlow,
      hhigh, wordOf_low_high, BitVec.add_assoc, BitVec.toNat_add]
    rfl
  case sp =>
    have hback (p : Byte) : p - 1 - 1 - 1 + 1 + 2 = p := by revert p; decide
    rw [setPc_sp, setSp_sp, writeA_sp, setSp_sp, hsp, hback]
  case a => exact hstatus
  case iSet =>
    rw [flag_setPc, flag_setSp, flag_writeA, if_neg (by decide), if_neg (by decide), flag_setSp, flag_takeBreak,
      if_pos rfl]
  case direct =>
    have hlow_toNat : (lowByte (s.pc + 1)).toNat = (s.pc.toNat + 1) % 256 := by
      rw [lowByte_toNat, BitVec.toNat_add]
      exact Nat.mod_mod_of_dvd _ (by decide)
    rw [setPc_pc, hstatus, hlow, BitVec.toNat_add, wordOf_toNat, hlow_toNat]
    rfl

/-! ## A store, then the next fetch -/

/-- The bytes at PC after one byte write at `a`, and the step that runs them. -/
theorem next_fetch_of_byte_write {s t : State} {a : Nat} {v : Byte} (hpc : t.pc = s.pc)
    (hmem : ∀ k, memRead t k = if maskAddr k = maskAddr a then v else memRead s k) :
    bytesFrom t s.pc.toNat 3 =
        ([0, 1, 2].map fun j => if (s.pc.toNat + j) % 65536 = a % 65536 then v else memRead s (s.pc.toNat + j)) ∧
      ∀ i rest, decode (bytesFrom t s.pc.toNat 3) = .ok i rest →
        step t = exec i { t with pc := s.pc + BitVec.ofNat 16 i.length } := by
  constructor
  · have hbytes : bytesFrom t s.pc.toNat 3 = [0, 1, 2].map fun j => memRead t (s.pc.toNat + j) := rfl
    rw [hbytes]
    exact List.map_congr_left fun j _ => hmem (s.pc.toNat + j)
  · intro i rest h
    rw [← hpc] at h ⊢
    exact step_of_decode h

/-- Settles O49: each form is one byte write that leaves PC, and the fetch reads memory. -/
theorem aStoreIsSeenByTheNextFetch : Obligations.AStoreIsSeenByTheNextFetch := by
  intro s b w Seen
  have seen {i : Instr} {t : State} {a : Nat} {v : Byte} (hexec : exec i s = .next t) (hpc : t.pc = s.pc)
      (hmem : ∀ k, memRead t k = if maskAddr k = maskAddr a then v else memRead s k) : Seen i a v := by
    obtain ⟨hbytes, hstep⟩ := next_fetch_of_byte_write hpc hmem
    exact ⟨t, hexec, hbytes, fun j rest h => hstep j rest (by rw [hbytes]; exact h)⟩
  have stored {i : Instr} {o : Address} {v : Byte} (hexec : exec i s = .next (store o v s)) : Seen i (o.ea s) v :=
    seen hexec rfl (memRead_store s o v)
  have pushed : Seen .pha (stackAddr s.sp) s.a :=
    seen (exec_pha s) rfl fun k => by rw [memRead_push, maskAddr_stackAddr]
  exact ⟨stored rfl, stored rfl, stored rfl, stored rfl, stored rfl, stored rfl, stored rfl, stored rfl, stored rfl,
    stored rfl, stored rfl, pushed⟩

end Sys2Proof.Machine
end

section
/-! The host's transactions on memory and registers (60_exceptions.md R170, R171): word access (20_memory.md R43, R44),
LoadProgram and Dump (R50, R52), register writes, Reset (70_reset_and_hazards.md R180), and the invariant they keep. -/

namespace Sys2Proof.Machine

/-! ## Word access -/

/-- The two bytes of a word access are different, across the wrap too. -/
theorem maskAddr_succ_ne (addr : Nat) : maskAddr (addr + 1) ≠ maskAddr addr := by
  unfold maskAddr
  omega

theorem memRead_writeWord (s : State) (addr : Nat) (w : Word) (k : Nat) :
    memRead (writeWord s addr w) k =
      if maskAddr k = maskAddr (addr + 1) then highByte w
      else if maskAddr k = maskAddr addr then lowByte w else memRead s k := by
  rw [writeWord, memRead_memWrite, memRead_memWrite]

theorem memRead_writeWord_low (s : State) (addr : Nat) (w : Word) : memRead (writeWord s addr w) addr = lowByte w := by
  rw [memRead_writeWord, if_neg (maskAddr_succ_ne addr).symm, if_pos rfl]

/-- A word read returns the word written, for every address. -/
theorem readWord_writeWord (s : State) (addr : Nat) (w : Word) : readWord (writeWord s addr w) addr = w := by
  rw [readWord, memRead_writeWord_low, memRead_writeWord, if_pos rfl, wordOf_low_high]

theorem sameMemoryExcept_writeWord (s : State) (addr : Nat) (w : Word) :
    SameMemoryExcept [addr, addr + 1] s (writeWord s addr w) := by
  intro k hk
  obtain ⟨hlow, hhigh⟩ : maskAddr k ≠ maskAddr addr ∧ maskAddr k ≠ maskAddr (addr + 1) := by simpa using hk
  rw [memRead_writeWord, if_neg hhigh, if_neg hlow]

@[simp] theorem readReg_writeWord (r : Reg) (s : State) (addr : Nat) (w : Word) :
    readReg r (writeWord s addr w) = readReg r s := by
  rw [writeWord, readReg_memWrite, readReg_memWrite]

theorem writeWord_wf {s : State} (addr : Nat) (w : Word) (h : Memory.wf s.mem = true) :
    Memory.wf (writeWord s addr w).mem = true := memWrite_wf _ _ (memWrite_wf _ _ h)

/-- Settles O9: a word write is two byte writes at different addresses. -/
theorem wordsAreLittleEndianAndRoundTripEverywhere : Obligations.WordsAreLittleEndianAndRoundTripEverywhere := by
  intro s addr v
  refine ⟨wordOf_toNat _ _, writeWord s addr (BitVec.ofNat 16 v), rfl, sameMemoryExcept_writeWord s addr _,
    fun r _ => readReg_writeWord r s addr _, ?low, ?readBack⟩
  case low =>
    rw [memRead_writeWord_low, lowByte_toNat, BitVec.toNat_ofNat]
    exact Nat.mod_mod_of_dvd v (by decide)
  case readBack => rw [transact, readWord_writeWord, BitVec.toNat_ofNat]

/-! ## LoadProgram -/

@[simp] theorem readReg_loadBytes (r : Reg) (bs : List Byte) (addr : Nat) (s : State) :
    readReg r (loadBytes bs addr s) = readReg r s := by
  induction bs generalizing addr s with
  | nil => rfl
  | cons b bs ih =>
    rw [loadBytes, ih]
    split
    · exact readReg_memWrite r s addr b
    · rfl

/-- The memory after a load: the buffer's byte where the address is in its range, every other byte as before. Bytes past
the top of memory are dropped, so no address wraps. -/
theorem memRead_loadBytes (bs : List Byte) (addr : Nat) (s : State) {k : Nat} (hk : k ≤ 0xFFFF) :
    memRead (loadBytes bs addr s) k = if addr ≤ k then bs[k - addr]?.getD (memRead s k) else memRead s k := by
  induction bs generalizing addr s with
  | nil => simp only [loadBytes, List.getElem?_nil, Option.getD_none, ite_self]
  | cons b bs ih =>
    have hstep : memRead (if addr ≤ 0xFFFF then memWrite s addr b else s) k =
        if k = addr then b else memRead s k := by
      by_cases ha : addr ≤ 0xFFFF
      · rw [if_pos ha, memRead_memWrite, maskAddr_of_lt (Nat.lt_succ_of_le hk), maskAddr_of_lt (Nat.lt_succ_of_le ha)]
      · rw [if_neg ha, if_neg (by omega)]
    rw [loadBytes, ih, hstep]
    obtain hlt | rfl | hgt := Nat.lt_trichotomy k addr
    · rw [if_neg (by omega), if_neg (by omega), if_neg (by omega)]
    · rw [if_neg (by omega), if_pos rfl, if_pos (Nat.le_refl k), Nat.sub_self]
      rfl
    · have hindex : k - addr = k - (addr + 1) + 1 := by omega
      rw [if_pos (Nat.succ_le_of_lt hgt), if_neg (by omega), if_pos (by omega), hindex, List.getElem?_cons_succ]

theorem loadBytes_wf {s : State} (bs : List Byte) (addr : Nat) (h : Memory.wf s.mem = true) :
    Memory.wf (loadBytes bs addr s).mem = true := by
  induction bs generalizing addr s with
  | nil => exact h
  | cons b bs ih =>
    rw [loadBytes]
    apply ih
    split
    · exact memWrite_wf addr b h
    · exact h

/-- Settles O53: byte `j` is the buffer's, and outside the buffer's range there is none. -/
theorem loadProgramCopiesUpToTheTopAndDropsTheRest : Obligations.LoadProgramCopiesUpToTheTopAndDropsTheRest := by
  intro s bs origin
  constructor
  · intro horigin
    refine ⟨loadBytes bs origin s, if_pos horigin, fun r _ => readReg_loadBytes r bs origin s, ?copied, ?others⟩
    case copied =>
      intro j v hj hle
      rw [memRead_loadBytes bs origin s hle, if_pos (Nat.le_add_right origin j), Nat.add_sub_cancel_left, hj,
        Option.getD_some]
    case others =>
      intro k hk hout
      rw [memRead_loadBytes bs origin s hk]
      by_cases hle : origin ≤ k
      · rw [if_pos hle, List.getElem?_eq_none (by omega), Option.getD_none]
      · rw [if_neg hle]
  · intro horigin
    exact if_neg (Nat.not_le_of_lt horigin)

/-! ## Dump -/

@[simp] theorem length_bytesFrom (s : State) (addr n : Nat) : (bytesFrom s addr n).length = n := by
  induction n generalizing addr with
  | zero => rfl
  | succ n ih => rw [bytesFrom, List.length_cons, ih]

theorem getElem?_bytesFrom (s : State) (addr : Nat) {n j : Nat} (hj : j < n) :
    (bytesFrom s addr n)[j]? = some (memRead s (addr + j)) := by
  induction n generalizing addr j with
  | zero => exact absurd hj (Nat.not_lt_zero j)
  | succ n ih =>
    cases j with
    | zero => rfl
    | succ j =>
      rw [bytesFrom, List.getElem?_cons_succ, ih (addr + 1) (Nat.lt_of_succ_lt_succ hj), Nat.add_right_comm,
        Nat.add_assoc]

/-- Settles O54: a dump is `bytesFrom` of the clipped length. -/
theorem dumpIsTheClippedSlice : Obligations.DumpIsTheClippedSlice := by
  intro s start length
  refine ⟨dump start length s, rfl, length_bytesFrom s start _, fun j hj => ?element, fun hempty => ?empty⟩
  case element => exact getElem?_bytesFrom s start (by rwa [dump, length_bytesFrom] at hj)
  case empty =>
    rw [← List.length_eq_zero_iff, dump, length_bytesFrom]
    omega

/-! ## Register writes -/

theorem sameRegistersExcept_writeReg (r : Reg) (v : Nat) (s : State) : SameRegistersExcept [r] s (writeReg r v s) := by
  cases r with
  | a => exact sameRegistersExcept_setA s _
  | x => exact sameRegistersExcept_setX s _
  | y => exact sameRegistersExcept_setY s _
  | sp => exact sameRegistersExcept_setSp s _
  | pc => exact sameRegistersExcept_setPc s _
  | p => exact sameRegistersExcept_setP s _

theorem readReg_writeReg (r : Reg) (v : Nat) (s : State) :
    readReg r (writeReg r v s) = if r = .pc then v % 65536 else v % 256 := by
  cases r <;> exact BitVec.toNat_ofNat v _

@[simp] theorem writeReg_mem (r : Reg) (v : Nat) (s : State) : (writeReg r v s).mem = s.mem := by
  cases r <;> rfl

/-- Settles O56: a host write is a write of the one register, at its width. -/
theorem hostRegisterWritesKeepTheWidth : Obligations.HostRegisterWritesKeepTheWidth := by
  intro s r v
  exact ⟨writeReg r v s, rfl, by rw [transact, readReg_writeReg], sameRegistersExcept_writeReg r v s,
    writeReg_mem r v s⟩

/-! ## Reset -/

/-- The registers that Reset writes before it zeroes the stack page (R180). -/
def resetRegisters (s : State) : State := ((((s.setA 0x00).setX 0x00).setY 0x00).setSp 0xFF).setP 0x24

/-- What Reset makes of PC, under each value of RESET_PC_POLICY (R180). -/
def resetPc : Config.ResetPcPolicy → Word → Word
  | .unchanged, pc => pc
  | .zero, _ => 0x0000

theorem resetTransaction_eq (s : State) :
    resetTransaction s =
      (zeroBytes 0x0100 0x100 (resetRegisters s)).setPc (resetPc Config.resetPcPolicy s.pc) := by
  obtain ⟨-, -, -, -, hpc, -⟩ := zeroBytes_registers 0x100 0x0100 (resetRegisters s)
  have hkeep (u : State) : u.setPc u.pc = u := rfl
  rw [resetTransaction]
  cases Config.resetPcPolicy with
  | unchanged =>
    have hs : s.pc = (zeroBytes 0x0100 0x100 (resetRegisters s)).pc := hpc.symm
    rw [resetPc, hs, hkeep, resetRegisters]
  | zero => rw [resetPc, resetRegisters]

/-- Reset's memory is zeroed in the stack page. -/
theorem resetTransaction_mem (s : State) :
    (resetTransaction s).mem = (zeroBytes 0x0100 0x100 (resetRegisters s)).mem := by
  rw [resetTransaction_eq, setPc_mem]

theorem resetTransaction_pc (s : State) : (resetTransaction s).pc = resetPc Config.resetPcPolicy s.pc := by
  rw [resetTransaction_eq, setPc_pc]

theorem resetTransaction_registers (s : State) :
    (resetTransaction s).a = 0x00 ∧ (resetTransaction s).x = 0x00 ∧ (resetTransaction s).y = 0x00 ∧
      (resetTransaction s).sp = 0xFF ∧ (resetTransaction s).p = 0x24 := by
  obtain ⟨ha, hx, hy, hsp, -, hp⟩ := zeroBytes_registers 0x100 0x0100 (resetRegisters s)
  rw [resetTransaction_eq, setPc_a, setPc_x, setPc_y, setPc_sp, setPc_p]
  exact ⟨ha, hx, hy, hsp, hp⟩

/-- The stack page after Reset, and every other byte as before. -/
theorem memRead_resetTransaction (s : State) (k : Nat) :
    memRead (resetTransaction s) k =
      if 0x0100 ≤ maskAddr k ∧ maskAddr k ≤ 0x01FF then 0x00 else memRead s k := by
  have hmem : memRead (resetTransaction s) k = memRead (zeroBytes 0x0100 0x100 (resetRegisters s)) k := by
    rw [memRead, resetTransaction_mem, memRead]
  rw [hmem, memRead_zeroBytes _ _ _ _ (by decide)]
  exact if_congr (and_congr_right fun _ => Nat.lt_succ_iff) rfl rfl

/-- Settles O50: Reset writes its registers, zeroes the stack page, and leaves PC to the parameter. -/
theorem resetTransactionSetsRegistersAndStackPage : Obligations.ResetTransactionSetsRegistersAndStackPage := by
  intro s
  obtain ⟨ha, hx, hy, hsp, hp⟩ := resetTransaction_registers s
  refine ⟨resetTransaction s, rfl, ha, hx, hy, hsp, hp, (resetTransaction_pc s).trans ?pc,
    memRead_resetTransaction s⟩
  case pc => cases Config.resetPcPolicy <;> rfl

theorem resetTransaction_wf {s : State} (h : Memory.wf s.mem = true) : Memory.wf (resetTransaction s).mem = true := by
  rw [resetTransaction_mem]
  exact zeroBytes_wf _ _ h

/-- Above the 64 KiB space a canonical memory lists nothing. -/
theorem Memory.get_of_ge {m : Memory} {lo k : Nat} (hk : 0x10000 ≤ k) (hm : Memory.wfFrom lo m = true) :
    Memory.get m k = Config.unlistedByte := by
  induction m generalizing lo with
  | nil => rfl
  | cons c m ih =>
    simp only [Memory.wfFrom, Bool.and_eq_true, decide_eq_true_eq] at hm
    obtain ⟨⟨⟨-, hlt⟩, -⟩, hrest⟩ := hm
    rw [Memory.get, if_neg (by omega), ih hrest]

/-- Canonical memories in which every access reads the same are the same list. -/
theorem mem_eq_of_sameMemory {s t : State} (hs : Canonical s) (ht : Canonical t) (h : SameMemory s t) :
    t.mem = s.mem := by
  refine Memory.ext ht hs fun k => ?_
  by_cases hk : k < 0x10000
  · have := h k
    rwa [memRead, memRead, maskAddr_of_lt hk] at this
  · rw [Memory.get_of_ge (Nat.le_of_not_lt hk) ht, Memory.get_of_ge (Nat.le_of_not_lt hk) hs]

/-- Settles O51: the second Reset finds the registers and the stack page as it would leave them. -/
theorem resetTwiceIsResetOnce : Obligations.ResetTwiceIsResetOnce := by
  intro s hs
  obtain ⟨ha, hx, hy, hsp, hp⟩ := resetTransaction_registers s
  obtain ⟨ha', hx', hy', hsp', hp'⟩ := resetTransaction_registers (resetTransaction s)
  have hpc : (resetTransaction (resetTransaction s)).pc = (resetTransaction s).pc := by
    rw [resetTransaction_pc (resetTransaction s), resetTransaction_pc s]
    cases Config.resetPcPolicy <;> rfl
  have hmem : SameMemory (resetTransaction s) (resetTransaction (resetTransaction s)) := by
    intro k
    rw [memRead_resetTransaction (resetTransaction s), memRead_resetTransaction s]
    split <;> rfl
  have hcanonical : Canonical (resetTransaction s) := resetTransaction_wf hs
  exact State.ext (ha'.trans ha.symm) (hx'.trans hx.symm) (hy'.trans hy.symm) (hsp'.trans hsp.symm) hpc
    (hp'.trans hp.symm) (mem_eq_of_sameMemory hcanonical (resetTransaction_wf hcanonical) hmem)

/-- Zeroing writes nothing into a memory that lists nothing: every byte reads 0x00 already (D9). -/
theorem zeroBytes_mem_of_nil {s : State} (hs : s.mem = []) (addr n : Nat) : (zeroBytes addr n s).mem = [] := by
  induction n generalizing addr s with
  | zero => exact hs
  | succ n ih =>
    rw [zeroBytes]
    apply ih
    rw [memWrite, setMem_mem, hs]
    rfl

/-- The power-on reading of D8: Reset leaves PC. -/
theorem resetTransaction_pc_unchanged (s : State) : (resetTransaction s).pc = s.pc := resetTransaction_pc s

/-- Settles O52: with nothing listed Reset leaves nothing listed, and the state it leaves is the power-on state. -/
theorem powerOnThenResetIsTheResetStateAndResetKeepsPc :
    Obligations.PowerOnThenResetIsTheResetStateAndResetKeepsPc := by
  refine ⟨fun a x y sp p => ?powerOn, resetTransaction_pc_unchanged, rfl, rfl, rfl, rfl, rfl, rfl, fun _ => rfl⟩
  case powerOn =>
    obtain ⟨ha, hx, hy, hsp, hp⟩ := resetTransaction_registers ⟨a, x, y, sp, Config.pcPowerOn, p, []⟩
    refine State.ext ha hx hy hsp (resetTransaction_pc_unchanged _) hp ?_
    rw [resetTransaction_mem]
    exact zeroBytes_mem_of_nil rfl _ _

/-! ## The invariant -/

/-- Settles O39: the power-on state lists no cell. -/
theorem resetStateHasCanonicalMemory : Obligations.ResetStateHasCanonicalMemory := rfl

/-- What completes in two ways completes in one state. -/
theorem state_of_next {s t : State} {r r' : Reply}
    (h : (Host.Outcome.next (s, r) : Host.Outcome (State × Reply) Fault Refusal) = .next (t, r')) : t = s := by
  cases h
  rfl

/-- Settles O41: each transaction is one of the operations that keep the memory canonical, or writes no memory. -/
theorem everyHostTransactionKeepsTheMemoryCanonical : Obligations.EveryHostTransactionKeepsTheMemoryCanonical := by
  intro s t x r hs h
  cases x with
  | reset =>
    rw [state_of_next h]
    exact resetTransaction_wf hs
  | step =>
    obtain ⟨u, hu⟩ := step_completes s
    rw [transact, hu] at h
    rw [state_of_next h]
    exact everyStepKeepsTheMemoryCanonical s u hs hu
  | readReg | readByte | readWord | dump | pop =>
    rw [state_of_next h]
    exact hs
  | writeReg q v =>
    rw [state_of_next h, Canonical, writeReg_mem]
    exact hs
  | push v =>
    rw [state_of_next h]
    exact push_wf _ hs
  | disassemble a =>
    rw [transact] at h
    split at h
    · rw [state_of_next h]
      exact hs
    · cases h
  | writeByte a v =>
    rw [state_of_next h]
    exact memWrite_wf a _ hs
  | writeWord a v =>
    rw [state_of_next h]
    exact writeWord_wf a _ hs
  | loadProgram bs origin =>
    rw [transact] at h
    split at h
    · rw [state_of_next h]
      exact loadBytes_wf bs origin hs
    · cases h
  | clear =>
    rw [state_of_next h]
    rfl

end Sys2Proof.Machine
end

section
/-! The disassembler (46_disassembler.md R150 to R153): its record is of what the decoder reads at the address, and it
reads memory only. -/

namespace Sys2Proof.Machine

/-! ## The operand's digits -/

/-- The digit of weight 1 of a number in base 16, capitals above 9 (R153, D12). -/
def digitChar (n : Nat) : Char :=
  ['0', '1', '2', '3', '4', '5', '6', '7', '8', '9', 'A', 'B', 'C', 'D', 'E', 'F'].getD (n % 16) ' '

theorem digitChar_congr {m n : Nat} (h : m % 16 = n % 16) : digitChar m = digitChar n := by
  rw [digitChar, digitChar, h]

theorem hexDigit_eq_digitChar {n : Nat} (hn : n < 16) : hexDigit Config.hexCase n = digitChar n := by
  have hdigits : ∀ d : Fin 16, hexDigit Config.hexCase d = digitChar d := by decide +kernel
  exact hdigits ⟨n, hn⟩

def twoDigits (n : Nat) : String := String.ofList [digitChar (n / 16), digitChar n]

def fourDigits (n : Nat) : String :=
  String.ofList [digitChar (n / 4096), digitChar (n / 256), digitChar (n / 16), digitChar n]

theorem hex2_eq (b : Byte) : hex2 b = twoDigits b.toNat := by
  have hb := b.isLt
  have hlow : digitChar (b.toNat % 16) = digitChar b.toNat := digitChar_congr (Nat.mod_mod _ _)
  rw [hex2, hexDigit_eq_digitChar (by omega), hexDigit_eq_digitChar (by omega), hlow, twoDigits]

/-- Four digits are those of the high byte, then those of the low byte. -/
theorem hex4_eq (w : Word) : hex4 w = fourDigits w.toNat := by
  have h1 : digitChar (w.toNat / 256 / 16) = digitChar (w.toNat / 4096) := by rw [Nat.div_div_eq_div_mul]
  have h2 : digitChar (w.toNat % 256 / 16) = digitChar (w.toNat / 16) := digitChar_congr (by omega)
  have h3 : digitChar (w.toNat % 256) = digitChar w.toNat := digitChar_congr (by omega)
  rw [hex4, hex2_eq, hex2_eq, highByte_toNat, lowByte_toNat, twoDigits, twoDigits, h1, h2, h3, ← String.ofList_append]
  rfl

/-! ## The operand text of an encoding -/

/-- The operand text of an operand number in each mode (R153, 30_encoding.md R71). -/
def operandDigits : Mode → Nat → String
  | .imm, n => "#$" ++ twoDigits n
  | .zp, n => "$" ++ twoDigits n
  | .zpx, n => "$" ++ twoDigits n ++ ",X"
  | .zpy, n => "$" ++ twoDigits n ++ ",Y"
  | .abs, n => "$" ++ fourDigits n
  | .abx, n => "$" ++ fourDigits n ++ ",X"
  | .aby, n => "$" ++ fourDigits n ++ ",Y"
  | .imp, _ => ""

theorem operandText_one_byte {m : Mode} (hm : m.operandBytes = 1) (op b : Byte) :
    operandText m [op, b] = operandDigits m b.toNat := by
  cases m with
  | imm | zp | zpx | zpy => rw [operandDigits, ← hex2_eq]; rfl
  | abs | abx | aby | imp => cases hm

theorem operandText_two_bytes {m : Mode} (hm : m.operandBytes = 2) (op : Byte) (w : Word) :
    operandText m [op, lowByte w, highByte w] = operandDigits m w.toNat := by
  have hword : wordOf ([op, lowByte w, highByte w].getD 1 0) ([op, lowByte w, highByte w].getD 2 0) = w :=
    wordOf_low_high w
  cases m with
  | abs | abx | aby => rw [operandDigits, ← hex4_eq, operandText, hword]
  | imm | zp | zpx | zpy | imp => cases hm

/-- The text of an instruction's own bytes shows its operand in its mode. -/
theorem operandText_encode (i : Instr) : operandText i.mode (encode i) = operandDigits i.mode i.operand := by
  have hlen := length_operandBytes i
  rw [encode]
  cases i.format with
  | imp _ hbytes hoperand =>
    rw [hbytes] at hlen
    rw [hbytes, hoperand]
    generalize i.mode = m at hlen
    cases m with
    | imp => rfl
    | imm | zp | zpx | zpy | abs | abx | aby => cases hlen
  | b8 _ b _ _ hbytes hoperand =>
    rw [hbytes] at hlen
    rw [hbytes, hoperand, operandText_one_byte hlen.symm]
  | w16 _ w _ _ hbytes hoperand =>
    rw [hbytes] at hlen
    rw [hbytes, hoperand, operandText_two_bytes hlen.symm]

/-! ## The record -/

theorem take_bytesFrom (s : State) (a : Nat) {n m : Nat} (h : n ≤ m) :
    (bytesFrom s a m).take n = bytesFrom s a n := by
  induction n generalizing a m with
  | zero => rfl
  | succ n ih =>
    obtain ⟨m, rfl⟩ := Nat.exists_eq_add_of_lt h
    rw [bytesFrom, bytesFrom, List.take_succ_cons, ih (a + 1) (Nat.le_add_right n m)]

/-- The bytes of a decoded instruction in memory are its encoding. -/
theorem bytesFrom_of_decode {s : State} {a : Nat} {i : Instr} {rest : List Byte}
    (h : decode (bytesFrom s a 3) = .ok i rest) : bytesFrom s a i.length = encode i := by
  have hbytes : bytesFrom s a 3 = encode i ++ rest := everyDecodedInstructionHasOnlyItsOwnBytes _ _ _ h
  have hle : i.length ≤ 3 := by
    have := congrArg List.length hbytes
    rw [length_bytesFrom, List.length_append, length_encode] at this
    omega
  rw [← take_bytesFrom s a hle, hbytes, ← length_encode, List.take_left]

theorem disassemble_of_lookup_some {s : State} {a : Nat} {e : Entry} (h : lookup (memRead s a) = some e) :
    disassemble s a =
      ⟨a, bytesFrom s a (1 + e.mode.operandBytes), mnemonicText e.mnemonic,
        operandText e.mode (bytesFrom s a (1 + e.mode.operandBytes)), Config.disasmComment e.mnemonic e.mode⟩ := by
  simp only [disassemble, h]

/-- Where the bytes at the address decode, the record shows the decoded instruction. -/
theorem disassemble_of_decode {s : State} {a : Nat} {i : Instr} {rest : List Byte}
    (h : decode (bytesFrom s a 3) = .ok i rest) :
    disassemble s a =
      ⟨a, encode i, mnemonicText i.mnemonic, operandDigits i.mode i.operand,
        Config.disasmComment i.mnemonic i.mode⟩ := by
  obtain ⟨e, he, hn, hmode⟩ := lookup_of_decode_bytesFrom h
  have hbytes : bytesFrom s a (1 + i.mode.operandBytes) = encode i := bytesFrom_of_decode h
  rw [disassemble_of_lookup_some he, ← hn, ← hmode, hbytes, operandText_encode]

/-- Settles O58: the record is the decoded instruction's, and each text is that of its mnemonic and its mode. -/
theorem disassemblyShowsTheDecodedInstruction : Obligations.DisassemblyShowsTheDecodedInstruction := by
  intro s a i rest h digit two four
  rw [disassemble_of_decode h, DisassembledInstruction.mk.injEq]
  refine ⟨rfl, rfl, ?capitals, ?digits, rfl⟩
  case capitals => cases i.mnemonic <;> rfl
  case digits => cases i.mode <;> rfl

/-! ## Memory only -/

theorem bytesFrom_congr {s t : State} (h : SameMemory s t) (a n : Nat) : bytesFrom t a n = bytesFrom s a n := by
  induction n generalizing a with
  | zero => rfl
  | succ n ih => rw [bytesFrom, bytesFrom, h a, ih (a + 1)]

/-- The record is a function of memory. -/
theorem disassemble_congr {s t : State} (h : SameMemory s t) (a : Nat) : disassemble t a = disassemble s a := by
  cases he : lookup (memRead s a) with
  | none =>
    have ht : lookup (memRead t a) = none := by rw [h a, he]
    rw [disassemble_of_lookup_none he, disassemble_of_lookup_none ht, h a]
  | some e =>
    have ht : lookup (memRead t a) = some e := by rw [h a, he]
    rw [disassemble_of_lookup_some he, disassemble_of_lookup_some ht, bytesFrom_congr h]

/-- Settles O59: the transaction checks the address only, and the record is a function of memory. -/
theorem disassemblyReadsMemoryOnlyAndChangesNothing : Obligations.DisassemblyReadsMemoryOnlyAndChangesNothing := by
  intro s a
  refine ⟨fun ha => if_pos ha, fun t hmem => disassemble_congr (fun k => ?_) a,
    fun ha => if_neg (Nat.not_le_of_lt ha)⟩
  rw [memRead, memRead, hmem]

end Sys2Proof.Machine
end
